-- ==== Sys2Proof/Word.lean ====
section
/-! DEFINITION. The two word widths of the machine (spec 00_scope.md R5): the 4-bit nibble of X, Y, Z, the
RAM cells and the immediate, and the 8-bit byte of PC, LOC, TPC, an instruction and a RAM or ROM byte. Every
value is unsigned. -/

namespace Sys2Proof

/-- A 4-bit unsigned value: "half of a byte" (00_scope.md R5, Glossary). -/
abbrev Nibble := BitVec 4

/-- An 8-bit unsigned value: an instruction, an address, a RAM or ROM byte (00_scope.md R5). -/
abbrev Byte := BitVec 8

end Sys2Proof
end

