-- ==== Sys2Proof/Syntax.lean ====
section
/-! DEFINITION. The instruction set: one constructor for each of the 16 rows of opcode_table.json
(30_encoding.md R84). A format-OI instruction carries its 4-bit immediate; a format-O instruction carries
nothing, since its low nibble has no meaning (R82, R85; log entry 12). -/

namespace Sys2Proof

/-- The 16 instructions, in the order of their opcodes (00_scope.md R2, 30_encoding.md R84). -/
inductive Instr where
  /-- opcode 0: nothing (41_nop.md R130) -/
  | nop
  /-- opcode 1: Z = X + Y + cin (42_arithmetic.md R142) -/
  | add
  /-- opcode 2: Z = X - (Y + cin) (42_arithmetic.md R143) -/
  | sub
  /-- opcode 3: the high nibble of LOC (43_immediate_loads.md R170) -/
  | wt1 (imm : Nibble)
  /-- opcode 4: the low nibble of LOC (43_immediate_loads.md R171) -/
  | wt2 (imm : Nibble)
  /-- opcode 5: X (43_immediate_loads.md R172) -/
  | wtx (imm : Nibble)
  /-- opcode 6: Y (43_immediate_loads.md R173) -/
  | wty (imm : Nibble)
  /-- opcode 7: Z (43_immediate_loads.md R174) -/
  | wtz (imm : Nibble)
  /-- opcode 8: RAM nibble LOC = Z (44_memory_transfer.md R190) -/
  | ztr
  /-- opcode 9: Z = RAM nibble LOC (44_memory_transfer.md R191) -/
  | rtz
  /-- opcode 10: the low nibble of TPC (45_jump.md R210) -/
  | pc1 (imm : Nibble)
  /-- opcode 11: the high nibble of TPC (45_jump.md R211) -/
  | pc2 (imm : Nibble)
  /-- opcode 12: jump to TPC, which stays decremented (45_jump.md R212) -/
  | jmp
  /-- opcode 13: X = RAM nibble LOC, a read in spite of its name (44_memory_transfer.md R192, 30_encoding.md R89) -/
  | rtx
  /-- opcode 14: Y = RAM nibble LOC, a read in spite of its name (44_memory_transfer.md R193, 30_encoding.md R89) -/
  | rty
  /-- opcode 15: invert UC (42_arithmetic.md R144) -/
  | usc
  deriving DecidableEq, Repr

end Sys2Proof
end

