-- ==== Sys2Proof/WellFormed.lean ====
section
/-! DEFINITION. The formats O and OI (30_encoding.md R82), what makes an instruction well-formed (R83: its
immediate is in [0,15]), and the assembly statements of R87 and R88 with the check on their operands. An
operand of an assembly statement is a number as written, so it can be out of range or missing; an Instr holds
its immediate in 4 bits, so every Instr is well-formed. -/

namespace Sys2Proof

/-- The two uses of the one instruction layout (30_encoding.md R82). -/
inductive Format where
  /-- opcode only: the low nibble is ignored -/
  | o
  /-- opcode and immediate -/
  | oi
  deriving DecidableEq, Repr

/-- The 16 mnemonics of the source's opcode table (30_encoding.md R84, R89). -/
inductive Mnemonic where
  | nop | add | sub | wt1 | wt2 | wtx | wty | wtz | ztr | rtz | pc1 | pc2 | jmp | rtx | rty | usc
  deriving DecidableEq, Repr

/-- The format of each mnemonic (30_encoding.md R82). -/
def Mnemonic.format : Mnemonic → Format
  | .nop | .add | .sub | .ztr | .rtz | .jmp | .rtx | .rty | .usc => .o
  | .wt1 | .wt2 | .wtx | .wty | .wtz | .pc1 | .pc2 => .oi

/-- The mnemonic of an instruction (30_encoding.md R84). -/
def Instr.mnemonic : Instr → Mnemonic
  | .nop => .nop
  | .add => .add
  | .sub => .sub
  | .wt1 _ => .wt1
  | .wt2 _ => .wt2
  | .wtx _ => .wtx
  | .wty _ => .wty
  | .wtz _ => .wtz
  | .ztr => .ztr
  | .rtz => .rtz
  | .pc1 _ => .pc1
  | .pc2 _ => .pc2
  | .jmp => .jmp
  | .rtx => .rtx
  | .rty => .rty
  | .usc => .usc

/-- The immediate of an instruction that uses one (30_encoding.md R82, R83). -/
def Instr.immediate? : Instr → Option Nibble
  | .wt1 imm | .wt2 imm | .wtx imm | .wty imm | .wtz imm | .pc1 imm | .pc2 imm => some imm
  | .nop | .add | .sub | .ztr | .rtz | .jmp | .rtx | .rty | .usc => none

/-- An instruction carries an immediate exactly when its format is OI (30_encoding.md R82), and the immediate
is in [0,15] (R83). -/
def Instr.wellFormed (i : Instr) : Bool :=
  match i.mnemonic.format, i.immediate? with
  | .o, none => true
  | .oi, some imm => decide (imm.toNat ≤ 15)
  | .o, some _ => false
  | .oi, none => false

/-- An assembly statement as written (30_encoding.md R87, R88; the notation is the spec's own, D7). -/
inductive AsmStmt where
  /-- `MNEMONIC imm`, or `MNEMONIC` alone -/
  | core (m : Mnemonic) (operand : Option Nat)
  /-- `SETLOC a` -/
  | setloc (a : Nat)
  /-- `SETTPC t` -/
  | settpc (t : Nat)
  /-- `GOTO t` -/
  | goto (t : Nat)
  deriving DecidableEq, Repr

/-- The operand checks of 30_encoding.md R87 (imm in 0..15, and only where the format is OI) and R88 (a and t
in 0..255). -/
def AsmStmt.wellFormed : AsmStmt → Bool
  | .core m operand =>
    match m.format, operand with
    | .o, none => true
    | .oi, some v => decide (v ≤ 15)
    | .o, some _ => false
    | .oi, none => false
  | .setloc a => decide (a ≤ 255)
  | .settpc t => decide (t ≤ 255)
  | .goto t => decide (t ≤ 255)

end Sys2Proof
end

