-- ==== Sys2Proof/Decode.lean ====
section
/-! DEFINITION. The decoder, total on all 256 byte values (30_encoding.md R81, R85: "It cannot fail", so there
is nothing for it to reject), then the encoder, the disassembler and the assembler of R87 and R88, written from the same opcode map (R84). -/

namespace Sys2Proof

/-- `b[7:4]`. -/
def highNibble (b : Byte) : Nibble := b.extractLsb' 4 4

/-- `b[3:0]`. -/
def lowNibble (b : Byte) : Nibble := b.extractLsb' 0 4

/-- `{hi, lo}` (00_scope.md A5). -/
def joinNibbles (hi lo : Nibble) : Byte := hi ++ lo

/-- `decode(b) = (op, imm)` with `op = b[7:4]` and `imm = b[3:0]` (30_encoding.md R81). -/
def decodeFields (b : Byte) : Nibble × Nibble := (highNibble b, lowNibble b)

/-- The opcode map (30_encoding.md R84), one arm for each value of op[3], op[2], op[1], op[0]; every one of the
16 values has its arm and there is no default arm (40_executor.md R103). -/
def instrOf (op imm : Nibble) : Instr :=
  match op.getLsbD 3, op.getLsbD 2, op.getLsbD 1, op.getLsbD 0 with
  | false, false, false, false => .nop
  | false, false, false, true => .add
  | false, false, true, false => .sub
  | false, false, true, true => .wt1 imm
  | false, true, false, false => .wt2 imm
  | false, true, false, true => .wtx imm
  | false, true, true, false => .wty imm
  | false, true, true, true => .wtz imm
  | true, false, false, false => .ztr
  | true, false, false, true => .rtz
  | true, false, true, false => .pc1 imm
  | true, false, true, true => .pc2 imm
  | true, true, false, false => .jmp
  | true, true, false, true => .rtx
  | true, true, true, false => .rty
  | true, true, true, true => .usc

/-- The instruction a ROM byte encodes (30_encoding.md R81, R84, R85). -/
def decode (b : Byte) : Instr := instrOf (decodeFields b).1 (decodeFields b).2

/-- The opcode of each mnemonic (30_encoding.md R84). -/
def Mnemonic.opcode : Mnemonic → Nibble
  | .nop => 0x0#4
  | .add => 0x1#4
  | .sub => 0x2#4
  | .wt1 => 0x3#4
  | .wt2 => 0x4#4
  | .wtx => 0x5#4
  | .wty => 0x6#4
  | .wtz => 0x7#4
  | .ztr => 0x8#4
  | .rtz => 0x9#4
  | .pc1 => 0xA#4
  | .pc2 => 0xB#4
  | .jmp => 0xC#4
  | .rtx => 0xD#4
  | .rty => 0xE#4
  | .usc => 0xF#4

/-- The byte that encodes an instruction: opcode in the high nibble, immediate in the low nibble; the canonical
encoding of a format-O instruction has low nibble 0 (30_encoding.md R81, R87). -/
def encode (i : Instr) : Byte := joinNibbles i.mnemonic.opcode (i.immediate?.getD 0x0#4)

/-- What a disassembler prints of a byte: the mnemonic, with its immediate where the format is OI and bare
where it is O, whatever the ignored nibble (30_encoding.md R87). -/
def disassemble (b : Byte) : Mnemonic × Option Nibble := ((decode b).mnemonic, (decode b).immediate?)

/-- The high nibble of an 8-bit operand, as a pseudo-instruction's expansion uses it: `a>>4` (30_encoding.md R88). -/
def operandHigh (a : Nat) : Nibble := highNibble (BitVec.ofNat 8 a)

/-- The low nibble of an 8-bit operand: `a&0xF` (30_encoding.md R88). -/
def operandLow (a : Nat) : Nibble := lowNibble (BitVec.ofNat 8 a)

/-- The instructions an assembly statement stands for, in order: one for a core instruction (30_encoding.md
R87), the listed expansion for a pseudo-instruction (R88); nothing where the statement is ill-formed. -/
def AsmStmt.expand (a : AsmStmt) : Option (List Instr) :=
  match a.wellFormed, a with
  | false, _ => none
  | true, .core m operand => some [instrOf m.opcode (BitVec.ofNat 4 (operand.getD 0))]
  | true, .setloc l => some [.wt1 (operandHigh l), .wt2 (operandLow l)]
  | true, .settpc t => some [.pc1 (operandLow t), .pc2 (operandHigh t)]
  | true, .goto t => some [.pc1 (operandLow t), .pc2 (operandHigh t), .jmp]

/-- The byte of an instruction whose bits are `w`: an instruction is one byte (30_encoding.md R80), so the bits
a row is given are the byte's, and those above them are 0. -/
def tableByte (nbits w : Nat) : Byte := BitVec.ofNat 8 (w % 2 ^ nbits)

/-- The instruction the decoder reads from an opcode-table row's bits (the host's question of each row). -/
def decodeTableWord (nbits w : Nat) : Option Instr := some (decode (tableByte nbits w))

end Sys2Proof
end

