-- ==== Sys2Proof/Config.lean ====
section
/-! DEFINITION. The parameters the spec fixes (00_scope.md R5: "None is left to the implementation"). No free
value is declared: the spec calls no result undefined or unpredictable (93_implementation_defined.md). The one
argument of the machine, the ROM image (R6), is part of State and is set by the load port. -/

namespace Sys2Proof.Config

/-- Bytes of ROM (00_scope.md R5, 20_memory.md R50). -/
def romBytes : Nat := 256

/-- Bytes of RAM; each holds two nibbles (00_scope.md R5, 20_memory.md R50). -/
def ramBytes : Nat := 128

/-- The most program bytes a load copies; the byte after them is never loaded (00_scope.md R5, 20_memory.md R63). -/
def maxProgramBytes : Nat := 255

/-- RAM nibbles 0..3 are the display-mapped region (00_scope.md R5, 20_memory.md R61). -/
def displayNibbles : Nat := 4

end Sys2Proof.Config
end

