-- ==== Sys2Proof/Machine/State.lean ====
section
/-! DEFINITION. The machine's state as plain data: exactly the items of the table of 10_state.md R20 ("and
nothing else"), the reasons a port operation can stop, and the state after reset (70_reset_and_hazards.md R260). -/

namespace Sys2Proof.Machine

/-- A memory: (address, byte) pairs, addresses strictly rising, no byte equal to what an unlisted address reads as
(Memory.wf in Ops.lean). RAM and ROM are one each (20_memory.md R50). -/
abbrev Memory := List Host.Cell

/-- The three change flags CHG (10_state.md R32), which also serve as the set of flags an instruction sets
(40_executor.md R102, R106). -/
structure ChangeFlags where
  /-- CHG.regs, registers-changed -/
  regs : Bool
  /-- CHG.mem, memory-changed -/
  mem : Bool
  /-- CHG.disp, display-region-changed -/
  disp : Bool
  deriving DecidableEq, Repr

/-- The architectural state (10_state.md R20). -/
structure State where
  /-- ALU operand (R21) -/
  x : Nibble
  /-- ALU operand (R22) -/
  y : Nibble
  /-- ALU result, and the only register ZTR stores (R23) -/
  z : Nibble
  /-- LOC: RAM nibble address (R31) -/
  loc : Byte
  /-- PC: ROM byte address of the next instruction (R26) -/
  pc : Byte
  /-- TPC: staging jump target (R33) -/
  tpc : Byte
  /-- C: carry flag (R27) -/
  c : Bool
  /-- UC: carry enable (R28) -/
  uc : Bool
  /-- CHG: the change flags (R32) -/
  chg : ChangeFlags
  /-- RAM: 128 bytes, byte addresses 0..127; a byte holds two nibbles (20_memory.md R52) -/
  ram : Memory
  /-- ROM: 256 bytes, addresses 0..255; written by the load alone (20_memory.md R63, R64) -/
  rom : Memory
  deriving DecidableEq, Repr

/-- Why the machine stops with an error. No step raises one (40_executor.md R109, 60_exceptions.md R230). -/
inductive Fault where
  /-- `Error EmptyProgram`: raised by LoadProgram on zero bytes (20_memory.md R63), so by creation and by the load
  port. "No machine is created and no step runs" (60_exceptions.md R235). Safe: the model stops. -/
  | emptyProgram
  deriving DecidableEq, Repr

/-- Why the model gives something no meaning. -/
inductive Refusal where
  /-- An instruction without a meaning yet. Raised by no arm of exec: every instruction has its meaning. Safe. -/
  | notModelled (mnemonic : String)
  /-- A load request while reset is not asserted: "the model gives it no meaning and reaches no state from it"
  (92_eei_decisions.md D5, 93_implementation_defined.md I10). Raised by the port cycle only. Safe. -/
  | loadOutsideReset
  deriving DecidableEq, Repr

/-- No change flag. -/
def ChangeFlags.clear : ChangeFlags := { regs := false, mem := false, disp := false }

/-- The state that reset establishes over a ROM image: every register, flag and RAM nibble at the value of the
table of 10_state.md R20 (70_reset_and_hazards.md R260). The change flags are false by the spec's decision D2
(log entry 3). -/
def State.initial (rom : Memory) : State where
  x := 0x0#4
  y := 0x0#4
  z := 0x0#4
  loc := 0x00#8
  pc := 0x00#8
  tpc := 0x00#8
  c := false
  uc := false
  chg := ChangeFlags.clear
  ram := []
  rom := rom

/-- The machine right after reset with no program placed: the ROM lists nothing, so every ROM byte reads 0x00
(DESIGN CHOICE, unsafe: log entry 1; a program is loaded from outside, log entry 2). -/
def State.reset : State := State.initial []

end Sys2Proof.Machine
end

