-- ==== Sys2Proof/Machine/Ops.lean ====
section
/-! DEFINITION. The named operations over the two memories and the registers: byte memory in canonical form, the
nibble primitives MemRead and MemWrite (20_memory.md R53, R54), the fetch (R51), one update per register, the
change-flag set (40_executor.md R106), and actions 3 and 4 that end every step (R104, R105). There is no
operation that takes an exception and none that returns from one: the block has neither (60_exceptions.md R230,
R233, R234). -/

namespace Sys2Proof.Machine

/-- What an address that a memory does not list reads as: RAM is all zero when the machine is created (20_memory.md
R65), and ROM bytes past the loaded program are 0x00 (R63). -/
def Memory.unlisted : Byte := 0x00#8

/-- The byte at an address. -/
def Memory.read : Memory → Nat → Byte
  | [], _ => Memory.unlisted
  | (k, b) :: m, a => if k = a then b else Memory.read m a

/-- The memory without any entry at an address. -/
def Memory.erase : Memory → Nat → Memory
  | [], _ => []
  | (k, b) :: m, a => if k = a then Memory.erase m a else (k, b) :: Memory.erase m a

/-- The memory with an entry placed before the first larger address. -/
def Memory.insert : Memory → Nat → Byte → Memory
  | [], a, v => [(a, v)]
  | (k, b) :: m, a, v => if a < k then (a, v) :: (k, b) :: m else (k, b) :: Memory.insert m a v

/-- Write one byte, keeping the canonical form: the value an unlisted address reads as takes the entry away. -/
def Memory.write (m : Memory) (a : Nat) (v : Byte) : Memory :=
  if v = Memory.unlisted then Memory.erase m a else Memory.insert (Memory.erase m a) a v

/-- The canonical form from an address on: strictly rising addresses below the size, no byte as unlisted. -/
def Memory.wfFrom (size : Nat) : Nat → Memory → Bool
  | _, [] => true
  | lo, (k, b) :: m =>
    decide (lo ≤ k) && decide (k < size) && (b != Memory.unlisted) && Memory.wfFrom size (k + 1) m

/-- The canonical form of a memory of `size` bytes. -/
def Memory.wf (size : Nat) (m : Memory) : Bool := Memory.wfFrom size 0 m

/-- The memory that holds a list of bytes from an address on and 0x00 elsewhere. -/
def Memory.ofBytes : Nat → List Byte → Memory
  | _, [] => []
  | a, b :: bs => if b = Memory.unlisted then Memory.ofBytes (a + 1) bs else (a, b) :: Memory.ofBytes (a + 1) bs

/-- `RomRead(a)` (20_memory.md R51). -/
def romRead (s : State) (a : Byte) : Byte := Memory.read s.rom a.toNat

/-- Action 1's fetch: the byte at PC (40_executor.md R102). -/
def fetch (s : State) : Byte := romRead s s.pc

/-- The RAM byte that holds nibble a: `a >> 1` (20_memory.md R52). -/
def nibbleByte (a : Byte) : Nat := (a >>> 1).toNat

/-- Where nibble a starts in its byte: `4 * (a & 1)`, so an even a is the low nibble (20_memory.md R52, R53). -/
def nibbleShift (a : Byte) : Nat := 4 * (a &&& 0x01#8).toNat

/-- The nibble of a byte at a shift: `(byte >> sh) & 0xF` (20_memory.md R53). -/
def getNibble (byte : Byte) (sh : Nat) : Nibble := (byte >>> sh).setWidth 4

/-- A byte with the nibble at a shift replaced: `(byte & ~(0xF << sh)) | (v << sh)` (20_memory.md R54). -/
def putNibble (byte : Byte) (sh : Nat) (v : Nibble) : Byte :=
  (byte &&& ~~~(0x0F#8 <<< sh)) ||| (v.setWidth 8 <<< sh)

/-- `MemRead(a, 1)` (20_memory.md R53). -/
def memRead (s : State) (a : Byte) : Nibble := getNibble (Memory.read s.ram (nibbleByte a)) (nibbleShift a)

/-- The byte of RAM byte k, as `RAM_byte[k]` (20_memory.md R52, R57). -/
def ramByte (s : State) (k : Nat) : Byte := Memory.read s.ram k

/-- X <- v. -/
def State.setX (s : State) (v : Nibble) : State := { s with x := v }

/-- Y <- v. -/
def State.setY (s : State) (v : Nibble) : State := { s with y := v }

/-- Z <- v. -/
def State.setZ (s : State) (v : Nibble) : State := { s with z := v }

/-- LOC <- v. -/
def State.setLoc (s : State) (v : Byte) : State := { s with loc := v }

/-- PC <- v. -/
def State.setPc (s : State) (v : Byte) : State := { s with pc := v }

/-- TPC <- v. -/
def State.setTpc (s : State) (v : Byte) : State := { s with tpc := v }

/-- C <- v. -/
def State.setC (s : State) (v : Bool) : State := { s with c := v }

/-- UC <- v. -/
def State.setUc (s : State) (v : Bool) : State := { s with uc := v }

/-- CHG <- v. -/
def State.setChg (s : State) (v : ChangeFlags) : State := { s with chg := v }

/-- RAM <- m. -/
def State.setRam (s : State) (m : Memory) : State := { s with ram := m }

/-- ROM <- m; used by the load alone (20_memory.md R63, R64). -/
def State.setRom (s : State) (m : Memory) : State := { s with rom := m }

/-- `MemWrite(a, 1, v)`: the sibling nibble in the byte is kept (20_memory.md R54). -/
def memWrite (s : State) (a : Byte) (v : Nibble) : State :=
  s.setRam (Memory.write s.ram (nibbleByte a) (putNibble (ramByte s (nibbleByte a)) (nibbleShift a) v))

/-- `CHG ∪ sets` (40_executor.md R102, R106). -/
def ChangeFlags.union (f g : ChangeFlags) : ChangeFlags where
  regs := f.regs || g.regs
  mem := f.mem || g.mem
  disp := f.disp || g.disp

/-- `CHG <- CHG ∪ sets`: a flag is set, never cleared (40_executor.md R106). -/
def raise (sets : ChangeFlags) (s : State) : State := s.setChg (s.chg.union sets)

/-- The set {CHG.regs} (40_executor.md R106). -/
def regsOnly : ChangeFlags := { regs := true, mem := false, disp := false }

/-- What ZTR sets at a nibble address: CHG.mem, and CHG.disp iff the address is below 4 (40_executor.md R106,
44_memory_transfer.md R190). -/
def storeSets (a : Byte) : ChangeFlags :=
  { regs := false, mem := true, disp := decide (a.toNat < Config.displayNibbles) }

/-- `R & 0xF`: the low 4 bits of a raw result. Action 3 masks X, Y and Z so; only ADD and SUB produce a value it
changes (40_executor.md R104, 10_state.md R25), so the mask stands where their raw result enters the 4-bit Z (log
entry 4). It does not saturate (90_conflicts.md C2). -/
def maskNibble (raw : Byte) : Nibble := raw.setWidth 4

/-- Actions 3 and 4, which end every step: X, Y and Z are 4-bit registers, so the mask leaves them as they are
(10_state.md R25), and `PC <- (PC + 1) mod 256` (40_executor.md R105). -/
def endStep (s : State) : State := s.setPc (s.pc + 0x01#8)

/-- The end of a step whose action 2 answered. -/
def finishStep : Host.Outcome State Fault Refusal → Host.Outcome State Fault Refusal
  | .next t => .next (endStep t)
  | .fault r => .fault r
  | .refused r => .refused r

/-- Place an instruction's byte at the ROM address the next step fetches from; nothing else changes. It stands for
a load from outside (log entry 2). -/
def placeAtPc (s : State) (b : Byte) : State := s.setRom (Memory.write s.rom s.pc.toNat b)

end Sys2Proof.Machine
end

