-- ==== Sys2Proof/Machine/Operands.lean ====
section
/-! DEFINITION. The operand forms (30_encoding.md R83): where an immediate goes in an 8-bit register, and the RAM
operand, whose address is always LOC. Every register operand is implied by the opcode. -/

namespace Sys2Proof.Machine

/-- `(r & 0x0F) | (imm << 4)`: the immediate in the high nibble, the low nibble kept (30_encoding.md R83; WT1 R170,
PC2 R211). -/
def withHighNibble (r : Byte) (imm : Nibble) : Byte := (r &&& 0x0F#8) ||| (imm.setWidth 8 <<< 4)

/-- `(r & 0xF0) | imm`: the immediate in the low nibble, the high nibble kept (30_encoding.md R83; WT2 R171, PC1
R210). -/
def withLowNibble (r : Byte) (imm : Nibble) : Byte := (r &&& 0xF0#8) ||| imm.setWidth 8

/-- The RAM address of ZTR, RTZ, RTX and RTY: LOC at the start of the step (44_memory_transfer.md). -/
def ramAddress (s : State) : Byte := s.loc

/-- The RAM operand of a load: `MemRead(LOC, 1)` (44_memory_transfer.md R191-R193). -/
def ramOperand (s : State) : Nibble := memRead s (ramAddress s)

end Sys2Proof.Machine
end

