-- ==== Sys2Proof/Machine/Flags.lean ====
section
/-! DEFINITION. The ALU and its flags (42_arithmetic.md R140, R141): the carry term, the raw result of ADD and SUB
and the carry-out. There is no other condition code (10_state.md R29). -/

namespace Sys2Proof.Machine

/-- The two operations of the ALU (42_arithmetic.md R140). -/
inductive AluOp where
  | add
  | sub
  deriving DecidableEq, Repr

/-- The outputs of the ALU: a raw result before the mask, and the carry-out (42_arithmetic.md R140). -/
structure AluResult where
  /-- the raw result, at most 8 bits wide (00_scope.md R5) -/
  raw : Byte
  /-- what C receives -/
  carry : Bool
  deriving DecidableEq, Repr

/-- The carry term: C where UC is true, else 0 (42_arithmetic.md R141). -/
def carryTerm (s : State) : Bool := s.uc && s.c

/-- `X + Y + cin`, an unbounded integer in 0..31 (42_arithmetic.md R142). -/
def aluSum (a b : Nibble) (cin : Bool) : Nat := a.toNat + b.toNat + cin.toNat

/-- `S = Y + cin`, in 0..16 (42_arithmetic.md R143). -/
def aluSubtrahend (b : Nibble) (cin : Bool) : Nat := b.toNat + cin.toNat

/-- The ALU. ADD: the sum, and bit 4 of it (42_arithmetic.md R142). SUB: `(X - S) mod 256`, and `X >= S`, which means
no borrow (R143). -/
def alu (op : AluOp) (a b : Nibble) (cin : Bool) : AluResult :=
  match op with
  | .add => { raw := BitVec.ofNat 8 (aluSum a b cin), carry := (aluSum a b cin).testBit 4 }
  | .sub =>
    { raw := a.setWidth 8 - BitVec.ofNat 8 (aluSubtrahend b cin)
      carry := decide (aluSubtrahend b cin ≤ a.toNat) }

/-- The one use of the ALU: operands X and Y and the carry term as the step finds them; Z receives the masked result
and C the carry-out, whatever UC is (42_arithmetic.md R140-R143). -/
def aluStep (op : AluOp) (s : State) : State :=
  (s.setZ (maskNibble (alu op s.x s.y (carryTerm s)).raw)).setC (alu op s.x s.y (carryTerm s)).carry

end Sys2Proof.Machine
end

