-- ==== Sys2Proof/Machine/Arithmetic.lean ====
section
/-! DEFINITION. The meanings of ADD, SUB and USC (42_arithmetic.md): action 2 of their step (40_executor.md R102). -/

namespace Sys2Proof.Machine

/-- ADD: Z and C from the sum; CHG.regs (42_arithmetic.md R142). -/
def execAdd (s : State) : Host.Outcome State Fault Refusal := .next (raise regsOnly (aluStep .add s))

/-- SUB: Z and C from the difference; CHG.regs (42_arithmetic.md R143). -/
def execSub (s : State) : Host.Outcome State Fault Refusal := .next (raise regsOnly (aluStep .sub s))

/-- USC inverts UC; no change flag is set (42_arithmetic.md R144). -/
def execUsc (s : State) : Host.Outcome State Fault Refusal := .next (s.setUc (!s.uc))

end Sys2Proof.Machine
end

