-- ==== Sys2Proof/Machine/Immediate.lean ====
section
/-! DEFINITION. The meanings of WT1, WT2, WTX, WTY and WTZ (43_immediate_loads.md): action 2 of their step
(40_executor.md R102). Each sets CHG.regs, whether or not a value changes (R106). -/

namespace Sys2Proof.Machine

/-- WT1: `LOC <- (LOC & 0x0F) | (imm << 4)` (43_immediate_loads.md R170). -/
def execWt1 (imm : Nibble) (s : State) : Host.Outcome State Fault Refusal :=
  .next (raise regsOnly (s.setLoc (withHighNibble s.loc imm)))

/-- WT2: `LOC <- (LOC & 0xF0) | imm` (43_immediate_loads.md R171). -/
def execWt2 (imm : Nibble) (s : State) : Host.Outcome State Fault Refusal :=
  .next (raise regsOnly (s.setLoc (withLowNibble s.loc imm)))

/-- WTX: `X <- imm` (43_immediate_loads.md R172). -/
def execWtx (imm : Nibble) (s : State) : Host.Outcome State Fault Refusal := .next (raise regsOnly (s.setX imm))

/-- WTY: `Y <- imm` (43_immediate_loads.md R173). -/
def execWty (imm : Nibble) (s : State) : Host.Outcome State Fault Refusal := .next (raise regsOnly (s.setY imm))

/-- WTZ: `Z <- imm` (43_immediate_loads.md R174). -/
def execWtz (imm : Nibble) (s : State) : Host.Outcome State Fault Refusal := .next (raise regsOnly (s.setZ imm))

end Sys2Proof.Machine
end

