-- ==== Sys2Proof/Machine/Jump.lean ====
section
/-! DEFINITION. The meanings of PC1, PC2 and JMP (45_jump.md): action 2 of their step (40_executor.md R102). -/

namespace Sys2Proof.Machine

/-- PC1: `TPC <- (TPC & 0xF0) | imm`; CHG.regs (45_jump.md R210). -/
def execPc1 (imm : Nibble) (s : State) : Host.Outcome State Fault Refusal :=
  .next (raise regsOnly (s.setTpc (withLowNibble s.tpc imm)))

/-- PC2: `TPC <- (TPC & 0x0F) | (imm << 4)`; CHG.regs (45_jump.md R211). -/
def execPc2 (imm : Nibble) (s : State) : Host.Outcome State Fault Refusal :=
  .next (raise regsOnly (s.setTpc (withHighNibble s.tpc imm)))

/-- The value JMP leaves in TPC: `(TPC - 1) mod 256` (45_jump.md R212). -/
def jumpTpc (s : State) : Byte := s.tpc - 0x01#8

/-- JMP: TPC is decremented and stays so, PC receives the decremented value, and action 4 then makes PC the old TPC;
no change flag is set (45_jump.md R212, R213). -/
def execJmp (s : State) : Host.Outcome State Fault Refusal := .next ((s.setTpc (jumpTpc s)).setPc (jumpTpc s))

end Sys2Proof.Machine
end

