-- ==== Sys2Proof/Machine/Nop.lean ====
section
/-! DEFINITION. The meaning of NOP (41_nop.md): action 2 of its step (40_executor.md R102). -/

namespace Sys2Proof.Machine

/-- NOP does nothing; no change flag is set (41_nop.md R130). -/
def execNop (s : State) : Host.Outcome State Fault Refusal := .next s

end Sys2Proof.Machine
end

