-- ==== Sys2Proof/Machine/Transfer.lean ====
section
/-! DEFINITION. The meanings of ZTR, RTZ, RTX and RTY (44_memory_transfer.md): action 2 of their step (40_executor.md
R102). One store, from Z, and three loads (R194). -/

namespace Sys2Proof.Machine

/-- ZTR: RAM nibble LOC receives Z; CHG.mem, and CHG.disp iff LOC < 4 (44_memory_transfer.md R190). -/
def execZtr (s : State) : Host.Outcome State Fault Refusal :=
  .next (raise (storeSets (ramAddress s)) (memWrite s (ramAddress s) s.z))

/-- RTZ: `Z <- MemRead(LOC, 1)`; CHG.regs (44_memory_transfer.md R191). -/
def execRtz (s : State) : Host.Outcome State Fault Refusal := .next (raise regsOnly (s.setZ (ramOperand s)))

/-- RTX: `X <- MemRead(LOC, 1)`, a read; CHG.regs (44_memory_transfer.md R192; log entry 14). -/
def execRtx (s : State) : Host.Outcome State Fault Refusal := .next (raise regsOnly (s.setX (ramOperand s)))

/-- RTY: `Y <- MemRead(LOC, 1)`, a read; CHG.regs (44_memory_transfer.md R193; log entry 14). -/
def execRty (s : State) : Host.Outcome State Fault Refusal := .next (raise regsOnly (s.setY (ramOperand s)))

end Sys2Proof.Machine
end

