-- ==== Sys2Proof/Machine/Dispatch.lean ====
section
/-! DEFINITION. Action 2 of a step: exactly one arm for each of the 16 instructions, with no default arm
(40_executor.md R103). -/

namespace Sys2Proof.Machine

def exec (i : Instr) (s : State) : Host.Outcome State Fault Refusal :=
  match i with
  | .nop => Sys2Proof.Machine.execNop s
  | .add => Sys2Proof.Machine.execAdd s
  | .sub => Sys2Proof.Machine.execSub s
  | .wt1 imm => Sys2Proof.Machine.execWt1 imm s
  | .wt2 imm => Sys2Proof.Machine.execWt2 imm s
  | .wtx imm => Sys2Proof.Machine.execWtx imm s
  | .wty imm => Sys2Proof.Machine.execWty imm s
  | .wtz imm => Sys2Proof.Machine.execWtz imm s
  | .ztr => Sys2Proof.Machine.execZtr s
  | .rtz => Sys2Proof.Machine.execRtz s
  | .pc1 imm => Sys2Proof.Machine.execPc1 imm s
  | .pc2 imm => Sys2Proof.Machine.execPc2 imm s
  | .jmp => Sys2Proof.Machine.execJmp s
  | .rtx => Sys2Proof.Machine.execRtx s
  | .rty => Sys2Proof.Machine.execRty s
  | .usc => Sys2Proof.Machine.execUsc s

end Sys2Proof.Machine
end

