-- ==== Sys2Proof/Machine/Step.lean ====
section
/-! DEFINITION. One step: fetch and decode, execute, mask, advance (40_executor.md R102). It is the answer to one step
request with no clear; the other ports are in Ports.lean. -/

namespace Sys2Proof.Machine

/-- One step (40_executor.md R102): action 1 is fetch and decode, action 2 is exec, actions 3 and 4 are finishStep. -/
def step (s : State) : Host.Outcome State Fault Refusal := finishStep (exec (decode (fetch s)) s)

/-- The state with an opcode-table row's instruction at the ROM address that step fetches from (log entry 2). -/
def State.withFetchWord (s : State) (nbits w : Nat) : State := placeAtPc s (tableByte nbits w)

end Sys2Proof.Machine
end

