-- ==== Sys2Proof/Machine/Ports.lean ====
section
/-! DEFINITION. The block's ports (40_executor.md R100): the program load (20_memory.md R63), machine creation and the
reset input (70_reset_and_hazards.md R260, R261), the change-flag clears (40_executor.md R107), one cycle of inputs, and the read-only outputs (R112). The ports are the spec's own choice (D1-D5, D10; log entries 6 to 10, 18). -/

namespace Sys2Proof.Machine

/-- What the environment drives at one moment between steps (40_executor.md R100). -/
structure Inputs where
  /-- while asserted the block holds the reset state -/
  reset : Bool := false
  /-- a load request with its bytes -/
  load : Option (List Byte) := none
  /-- one request runs one step -/
  stepReq : Bool := false
  /-- clear CHG.regs -/
  clrRegs : Bool := false
  /-- clear CHG.mem -/
  clrMem : Bool := false
  /-- clear CHG.disp -/
  clrDisp : Bool := false
  deriving DecidableEq, Repr

/-- The read-only outputs (40_executor.md R100). -/
structure Outputs where
  x : Nibble
  y : Nibble
  z : Nibble
  pc : Byte
  loc : Byte
  tpc : Byte
  c : Bool
  uc : Bool
  /-- RAM bytes 0..127 in order -/
  ram : List Byte
  /-- ROM bytes 0..255 in order -/
  rom : List Byte
  chgRegs : Bool
  chgMem : Bool
  chgDisp : Bool
  deriving DecidableEq, Repr

/-- `LoadProgram(bytes)`: zero bytes fail; otherwise the first 255 bytes from address 0, and 0x00 elsewhere
(20_memory.md R63). -/
def loadProgram (bytes : List Byte) : Except Fault Memory :=
  match bytes with
  | [] => .error .emptyProgram
  | b :: bs => .ok (Memory.ofBytes 0 ((b :: bs).take Config.maxProgramBytes))

/-- Machine creation: the load, then every item at its reset value (70_reset_and_hazards.md R260). If the load fails no
machine exists. -/
def create (bytes : List Byte) : Except Fault State :=
  match loadProgram bytes with
  | .error e => .error e
  | .ok rom => .ok (State.initial rom)

/-- The change flags after the consumer's clears: each clears its own flag only (40_executor.md R107). -/
def clearFlags (inp : Inputs) (f : ChangeFlags) : ChangeFlags where
  regs := f.regs && !inp.clrRegs
  mem := f.mem && !inp.clrMem
  disp := f.disp && !inp.clrDisp

/-- The clears, between steps (40_executor.md R107). -/
def applyClears (inp : Inputs) (s : State) : State := s.setChg (clearFlags inp s.chg)

/-- Reset asserted: the reset values, over the ROM image just loaded, or the one already there (70_reset_and_hazards.md
R261). A step request is ignored, and the clears find nothing set (log entry 10). -/
def resetCycle (load : Option (List Byte)) (s : State) : Host.Outcome State Fault Refusal :=
  match load with
  | none => .next (State.initial s.rom)
  | some bytes =>
    match loadProgram bytes with
    | .error e => .fault e
    | .ok rom => .next (State.initial rom)

/-- One moment of the block. Reset prevails (70_reset_and_hazards.md R261); a load without it is refused (92 D5);
otherwise the clears come first and then a requested step's sets (40_executor.md R107), and with no request the block
holds its state (R110). -/
def cycle (inp : Inputs) (s : State) : Host.Outcome State Fault Refusal :=
  match inp.reset, inp.load, inp.stepReq with
  | true, load, _ => resetCycle load s
  | false, some _, _ => .refused .loadOutsideReset
  | false, none, true => step (applyClears inp s)
  | false, none, false => .next (applyClears inp s)

/-- The outputs: a function of the state between steps alone (40_executor.md R100, R112). -/
def outputs (s : State) : Outputs where
  x := s.x
  y := s.y
  z := s.z
  pc := s.pc
  loc := s.loc
  tpc := s.tpc
  c := s.c
  uc := s.uc
  ram := (List.range Config.ramBytes).map (ramByte s)
  rom := (List.range Config.romBytes).map (Memory.read s.rom)
  chgRegs := s.chg.regs
  chgMem := s.chg.mem
  chgDisp := s.chg.disp

/-- The display view: RAM nibbles 0..3 (20_memory.md R61, 40_executor.md R100). Which bit is which pixel is the
renderer's (log entry 16). -/
def displayView (s : State) : List Nibble :=
  (List.range Config.displayNibbles).map fun k => memRead s (BitVec.ofNat 8 k)

end Sys2Proof.Machine
end

