-- ==== Sys2Proof/Safety.lean ====
section
/-! DEFINITION. The terms claims use: when an outcome completes, the invariants of the state, agreement of states, the
register access table (10_state.md R36), runs of instructions and of port cycles, and chained addition (42_arithmetic.md
R146). -/

namespace Sys2Proof

open Sys2Proof.Machine

/-- An outcome that is a next state. On this hardware every step completes (40_executor.md R109). -/
abbrev Completes (o : Host.Outcome State Fault Refusal) : Prop := ∃ t, o = .next t

/-- Both memories are in canonical form, RAM within its 128 bytes and ROM within its 256 (20_memory.md R50). -/
abbrev MemInv (s : State) : Prop :=
  Memory.wf Config.ramBytes s.ram = true ∧ Memory.wf Config.romBytes s.rom = true

/-- The ROM holds an image that a load produces, as far as R6 and R63 limit it: byte 255 is 0x00. -/
abbrev RomLoaded (s : State) : Prop := romRead s 0xFF#8 = 0x00#8

/-- The nine columns of the register access table (10_state.md R36). -/
inductive Column where
  | x | y | z | loc | tpc | pc | c | uc | ram
  deriving DecidableEq, Repr

/-- The cells of 10_state.md R36 that hold a w, rw or t: the columns an instruction's own effect may write. The +1 of PC
in every row is action 4 of the step; JMP alone writes PC itself. -/
def writes (i : Instr) : List Column :=
  match i with
  | .nop => []
  | .add | .sub => [.z, .c]
  | .wt1 _ | .wt2 _ => [.loc]
  | .wtx _ | .rtx => [.x]
  | .wty _ | .rty => [.y]
  | .wtz _ | .rtz => [.z]
  | .ztr => [.ram]
  | .pc1 _ | .pc2 _ => [.tpc]
  | .jmp => [.tpc, .pc]
  | .usc => [.uc]

/-- The cells of 10_state.md R36 that hold an r or rw, with the columns a partial write or a toggle keeps a part of: the
columns an instruction's results may depend on. A partly written column is listed because the nibble that is kept
depends on it. -/
def reads (i : Instr) : List Column :=
  match i with
  | .nop => []
  | .add | .sub => [.x, .y, .c, .uc]
  | .wt1 _ | .wt2 _ => [.loc]
  | .wtx _ | .wty _ | .wtz _ => []
  | .ztr => [.z, .loc, .ram]
  | .rtz | .rtx | .rty => [.loc, .ram]
  | .pc1 _ | .pc2 _ => [.tpc]
  | .jmp => [.tpc]
  | .usc => [.uc]

/-- Two states hold the same in a column; RAM is compared nibble by nibble. -/
def SameColumn (k : Column) (s t : State) : Prop :=
  match k with
  | .x => s.x = t.x
  | .y => s.y = t.y
  | .z => s.z = t.z
  | .loc => s.loc = t.loc
  | .tpc => s.tpc = t.tpc
  | .pc => s.pc = t.pc
  | .c => s.c = t.c
  | .uc => s.uc = t.uc
  | .ram => ∀ a, memRead s a = memRead t a

/-- Two states equal but for CHG. -/
abbrev SameButChg (s t : State) : Prop := s.setChg t.chg = t

/-- Two states equal but for ROM. -/
abbrev SameButRom (s t : State) : Prop := s.setRom t.rom = t

/-- The steps of given instructions one after another, each with the end of its step, from wherever they are fetched. -/
def runInstrs : List Instr → State → Host.Outcome State Fault Refusal
  | [], s => .next s
  | i :: is, s =>
    match finishStep (exec i s) with
    | .next t => runInstrs is t
    | .fault r => .fault r
    | .refused r => .refused r

/-- The port cycles of given inputs one after another. -/
def runCycles : List Inputs → State → Host.Outcome State Fault Refusal
  | [], s => .next s
  | inp :: inps, s =>
    match cycle inp s with
    | .next t => runCycles inps t
    | .fault r => .fault r
    | .refused r => .refused r

/-- The number that nibbles stand for, least significant first. -/
def nibblesValue : List Nibble → Nat
  | [] => 0
  | v :: vs => v.toNat + 16 * nibblesValue vs

/-- ADD on each pair of operands in turn, X and Y loaded by WTX and WTY, least significant pair first: the Z after each
ADD, and the last state (42_arithmetic.md R146: nothing between the ADDs writes C). -/
def chainAdd : List (Nibble × Nibble) → State → Option (List Nibble × State)
  | [], s => some ([], s)
  | (x, y) :: ps, s =>
    match runInstrs [.wtx x, .wty y, .add] s with
    | .next t =>
      match chainAdd ps t with
      | some (zs, u) => some (t.z :: zs, u)
      | none => none
    | .fault _ => none
    | .refused _ => none

/-- Nibble writes one after another, oldest first (20_memory.md R66). -/
def applyWrites (s : State) (ws : List (Byte × Nibble)) : State :=
  ws.foldl (fun u w => memWrite u w.1 w.2) s

/-- The value of the latest write to an address, the first found where there is none (20_memory.md R66). -/
def latestWrite (ws : List (Byte × Nibble)) (a : Byte) (before : Nibble) : Nibble :=
  ws.foldl (fun v w => if w.1 = a then w.2 else v) before

end Sys2Proof
end

