-- ==== Sys2Proof/Certificates/Slice0/Obligations.lean ====
section
/-! DEFINITION. The statements for the provers, in the order: encoding, the step, the change flags and the ports, the
registers, the memories, the invariants, the sixteen instructions, arithmetic and jumps. Each docstring cites the rule
of spec/ it formalises. -/

open Sys2Proof Sys2Proof.Machine

/-! ### Encoding -/

/-- 30_encoding.md R81: op is the high nibble and imm the low nibble of every byte, and the decoding depends on the byte
through these two fields alone. -/
def Obligations.ByteSplitsIntoOpcodeAndImmediate : Prop :=
  (∀ b : Byte, decodeFields b = (BitVec.ofNat 4 (b.toNat / 16), BitVec.ofNat 4 (b.toNat % 16))) ∧
  ∀ b : Byte, decode b = instrOf (BitVec.ofNat 4 (b.toNat / 16)) (BitVec.ofNat 4 (b.toNat % 16))

/-- 30_encoding.md R84: the instruction of every byte, written out from the opcode map. -/
def Obligations.OpcodeMapSelectsInstruction : Prop :=
  ∀ imm : Nibble,
    decode (0b0000#4 ++ imm) = .nop ∧ decode (0b0001#4 ++ imm) = .add ∧ decode (0b0010#4 ++ imm) = .sub ∧
    decode (0b0011#4 ++ imm) = .wt1 imm ∧ decode (0b0100#4 ++ imm) = .wt2 imm ∧ decode (0b0101#4 ++ imm) = .wtx imm ∧
    decode (0b0110#4 ++ imm) = .wty imm ∧ decode (0b0111#4 ++ imm) = .wtz imm ∧ decode (0b1000#4 ++ imm) = .ztr ∧
    decode (0b1001#4 ++ imm) = .rtz ∧ decode (0b1010#4 ++ imm) = .pc1 imm ∧ decode (0b1011#4 ++ imm) = .pc2 imm ∧
    decode (0b1100#4 ++ imm) = .jmp ∧ decode (0b1101#4 ++ imm) = .rtx ∧ decode (0b1110#4 ++ imm) = .rty ∧
    decode (0b1111#4 ++ imm) = .usc

/-- 30_encoding.md R85: two bytes encode the same instruction exactly when they have one opcode and, where its format
uses the immediate, one immediate; and the dispatch of every byte succeeds in every state. -/
def Obligations.LowNibbleIgnoredExactlyByFormatO : Prop :=
  (∀ b b' : Byte, decode b = decode b' ↔
    highNibble b = highNibble b' ∧ ((decode b).mnemonic.format = .oi → lowNibble b = lowNibble b')) ∧
  ∀ (b : Byte) (s : State), ∃ t, exec (decode b) s = .next t

/-- 30_encoding.md R81, R84, R87: decoding the encoding of a well-formed instruction gives it back, for all
instructions and every immediate; and encoding what any byte decodes to gives the byte's opcode with its own
immediate where the format is OI and with 0 where it is O. -/
def Obligations.EncodeAndDecodeAgree : Prop :=
  (∀ i : Instr, i.wellFormed = true → decode (encode i) = i) ∧
  ∀ b : Byte, encode (decode b) =
    joinNibbles (highNibble b) (match (decode b).mnemonic.format with | .oi => lowNibble b | .o => 0x0#4)

/-- 30_encoding.md R87, R88 (the spec's own notation, decision D7; log entry 17). A core statement with the operand of an
instruction stands for that instruction alone. SETLOC, SETTPC and GOTO stand for the lists R88 gives, in their order, and
their steps reach the LOC, TPC and PC they name from every state. A statement stands for nothing where an address is above
255 or an immediate above 15, where a format-O mnemonic has an operand, or where a format-OI mnemonic has none; and these
are exactly the ill-formed statements. -/
def Obligations.AssemblyExpandsAsListed : Prop :=
  (∀ i : Instr, (AsmStmt.core i.mnemonic (i.immediate?.map BitVec.toNat)).expand = some [i]) ∧
  (∀ a : Nat, a ≤ 255 →
    (AsmStmt.setloc a).expand = some [.wt1 (BitVec.ofNat 4 (a / 16)), .wt2 (BitVec.ofNat 4 (a % 16))] ∧
    (AsmStmt.settpc a).expand = some [.pc1 (BitVec.ofNat 4 (a % 16)), .pc2 (BitVec.ofNat 4 (a / 16))] ∧
    (AsmStmt.goto a).expand = some [.pc1 (BitVec.ofNat 4 (a % 16)), .pc2 (BitVec.ofNat 4 (a / 16)), .jmp]) ∧
  (∀ a : Nat, 255 < a →
    (AsmStmt.setloc a).expand = none ∧ (AsmStmt.settpc a).expand = none ∧ (AsmStmt.goto a).expand = none) ∧
  (∀ (m : Mnemonic) (v : Nat), 15 < v → (AsmStmt.core m (some v)).expand = none) ∧
  (∀ (m : Mnemonic) (v : Nat), m.format = .o → (AsmStmt.core m (some v)).expand = none) ∧
  (∀ m : Mnemonic, m.format = .oi → (AsmStmt.core m none).expand = none) ∧
  (∀ a : AsmStmt, a.expand = none ↔ a.wellFormed = false) ∧
  (∀ a : Nat, a ≤ 255 → ∀ s : State, ∃ is t, (AsmStmt.setloc a).expand = some is ∧ runInstrs is s = .next t ∧
    t.loc.toNat = a ∧ t.tpc = s.tpc) ∧
  (∀ a : Nat, a ≤ 255 → ∀ s : State, ∃ is t, (AsmStmt.settpc a).expand = some is ∧ runInstrs is s = .next t ∧
    t.tpc.toNat = a ∧ t.loc = s.loc) ∧
  (∀ a : Nat, a ≤ 255 → ∀ s : State, ∃ is t, (AsmStmt.goto a).expand = some is ∧ runInstrs is s = .next t ∧
    t.pc.toNat = a ∧ t.tpc.toNat = (a + 255) % 256)

/-! ### The step -/

/-- 40_executor.md R102: step fetches the byte at PC, runs the instruction it decodes to, and then advances PC. -/
def Obligations.StepRunsTheDecodedInstruction : Prop :=
  ∀ (s : State) (i : Instr), decode (romRead s s.pc) = i → i.wellFormed = true →
    ∃ t, exec i s = .next t ∧ step s = .next { t with pc := t.pc + 1 } ∧ step s = finishStep (exec i s)

/-- 40_executor.md R109: every step answers a next state, from every state, and the addresses a step forms are in
range. -/
def Obligations.StepNeverFails : Prop :=
  ∀ s : State, (∃ t, step s = .next t) ∧ (∃ t, exec (decode (fetch s)) s = .next t) ∧
    s.pc.toNat < Config.romBytes ∧ nibbleByte s.loc < Config.ramBytes

/-- 40_executor.md R110, R113: any number of steps can be run from any state; there is no final state. -/
def Obligations.RunOfAnyLengthNeverStops : Prop :=
  ∀ (n : Nat) (s : State), ∃ t, Sys2Proof.core.run n s = .next t

/-- 40_executor.md R111: after a step X, Y and Z are in [0,15]; PC is the next address unless the opcode was JMP; after a
JMP, PC is the TPC before it and TPC is one lower. -/
def Obligations.StepKeepsRangesAndAdvancesPc : Prop :=
  ∀ s t : State, step s = .next t →
    t.x.toNat ≤ 15 ∧ t.y.toNat ≤ 15 ∧ t.z.toNat ≤ 15 ∧
    ((romRead s s.pc).toNat / 16 ≠ 12 → t.pc.toNat = (s.pc.toNat + 1) % 256) ∧
    ((romRead s s.pc).toNat / 16 = 12 → t.pc = s.tpc ∧ t.tpc.toNat = (s.tpc.toNat + 255) % 256)

/-- 40_executor.md R105: every instruction's step ends with PC + 1 modulo 256; no instruction except JMP writes PC before
that, and none reads it. -/
def Obligations.OnlyJmpWritesPcBeforeTheAdvance : Prop :=
  (∀ (i : Instr) (s : State), ∃ t u, exec i s = .next t ∧ finishStep (exec i s) = .next u ∧
    u.pc.toNat = (t.pc.toNat + 1) % 256) ∧
  (∀ (i : Instr) (s : State) (v : Byte), i ≠ .jmp → ∃ t, exec i s = .next t ∧ t.pc = s.pc ∧
    exec i (s.setPc v) = .next (t.setPc v)) ∧
  ∀ (s : State) (v : Byte), exec .jmp (s.setPc v) = exec .jmp s

/-- 40_executor.md R108, 20_memory.md R50, R51: the step depends on ROM only through the byte at PC: two states equal but
for ROM that hold the same byte there step to states equal but for ROM, which each keep their own. -/
def Obligations.RomMattersOnlyThroughTheFetchedByte : Prop :=
  ∀ s t : State, SameButRom s t → fetch s = fetch t →
    ∃ u v, step s = .next u ∧ step t = .next v ∧ SameButRom u v ∧ v.rom = t.rom

/-! ### The change flags and the ports -/

/-- 40_executor.md R106: every instruction completes with CHG united with its row of the table, whatever the values it
writes. -/
def Obligations.ChangeFlagsFollowTheTable : Prop :=
  ∀ (i : Instr) (s : State), ∃ t, exec i s = .next t ∧
    t.chg.regs = (s.chg.regs || decide (i.mnemonic ∈
      ([.add, .sub, .wt1, .wt2, .wtx, .wty, .wtz, .rtz, .pc1, .pc2, .rtx, .rty] : List Mnemonic))) ∧
    t.chg.mem = (s.chg.mem || decide (i.mnemonic = .ztr)) ∧
    t.chg.disp = (s.chg.disp || decide (i.mnemonic = .ztr ∧ s.loc.toNat < 4))

/-- 10_state.md R32, 40_executor.md R107: a change flag stays set over any number of steps; a clear between steps clears its
own flag, no other and nothing else (one clear input per flag is the spec's own decision D3; log entry 6). -/
def Obligations.ChangeFlagsStaySetUntilCleared : Prop :=
  (∀ (n : Nat) (s t : State), Sys2Proof.core.run n s = .next t →
    (s.chg.regs = true → t.chg.regs = true) ∧ (s.chg.mem = true → t.chg.mem = true) ∧
    (s.chg.disp = true → t.chg.disp = true)) ∧
  ∀ (clrRegs clrMem clrDisp : Bool) (s : State),
    cycle { clrRegs := clrRegs, clrMem := clrMem, clrDisp := clrDisp } s =
      .next { s with chg := { regs := s.chg.regs && !clrRegs, mem := s.chg.mem && !clrMem,
                              disp := s.chg.disp && !clrDisp } }

/-- 40_executor.md R107 (the spec's own decision D3; log entry 6): where clears and a step arrive together, the cycle
completes, everything but CHG is what the step alone gives, and CHG is what the clears leave united with the flags the
step sets on clear flags. -/
def Obligations.ClearsComeBeforeTheStepsSets : Prop :=
  ∀ (clrRegs clrMem clrDisp : Bool) (s : State),
    ∃ t u v, cycle { stepReq := true, clrRegs := clrRegs, clrMem := clrMem, clrDisp := clrDisp } s = .next t ∧
      step s = .next u ∧ step { s with chg := ⟨false, false, false⟩ } = .next v ∧
      t = { u with chg := { regs := (s.chg.regs && !clrRegs) || v.chg.regs, mem := (s.chg.mem && !clrMem) || v.chg.mem,
                            disp := (s.chg.disp && !clrDisp) || v.chg.disp } }

/-- 10_state.md R35, 40_executor.md R107: the program cannot observe CHG: two states equal but for CHG run, over any number
of steps, to states equal but for CHG. -/
def Obligations.ProgramCannotObserveChangeFlags : Prop :=
  ∀ (n : Nat) (s t : State), SameButChg s t →
    ∃ u v, Sys2Proof.core.run n s = .next u ∧ Sys2Proof.core.run n t = .next v ∧ SameButChg u v

/-- 20_memory.md R63: LoadProgram fails on zero bytes; otherwise ROM holds the first 255 bytes from address 0 and 0x00 at
every other address, and the machine is created over that image. -/
def Obligations.LoadProgramFillsRom : Prop :=
  loadProgram [] = .error .emptyProgram ∧ create [] = .error .emptyProgram ∧
  ∀ bytes : List Byte, bytes ≠ [] → ∃ rom, loadProgram bytes = .ok rom ∧ create bytes = .ok (State.initial rom) ∧
    ∀ a : Nat, a < 256 →
      (a < min bytes.length 255 → bytes[a]? = some (Memory.read rom a)) ∧
      (min bytes.length 255 ≤ a → Memory.read rom a = 0x00#8)

/-- 70_reset_and_hazards.md R260, 10_state.md R20: what creation and reset leave: registers, flags and every RAM nibble 0
or false, and the ROM as loaded. The change flags are false by the spec's own decision D2 (log entry 3), and the ROM of
State.reset reads 0x00 everywhere by the model's choice (log entry 1). -/
def Obligations.CreationLeavesResetValues : Prop :=
  (∀ s : State, (s = State.reset ∨ ∃ bytes, create bytes = .ok s) →
    s.x = 0 ∧ s.y = 0 ∧ s.z = 0 ∧ s.loc = 0 ∧ s.pc = 0 ∧ s.tpc = 0 ∧ s.c = false ∧ s.uc = false ∧
    (∀ a : Byte, memRead s a = 0) ∧ s.chg.regs = false ∧ s.chg.mem = false ∧ s.chg.disp = false) ∧
  (∀ a : Byte, romRead State.reset a = 0) ∧
  ∀ (bytes : List Byte) (rom : Memory), loadProgram bytes = .ok rom → ∃ s, create bytes = .ok s ∧ s.rom = rom

/-- 70_reset_and_hazards.md R261 (the spec's own choice, decision D4; log entries 7, 9 and 10): with reset asserted the
state is held at the reset values whatever else is asserted, over the ROM already loaded where there is no load and over
the loaded image where there is one; an empty load faults. -/
def Obligations.ResetInputReproducesCreation : Prop :=
  ∀ (inp : Inputs) (s : State), inp.reset = true →
    (inp.load = none → cycle inp s = .next (State.initial s.rom)) ∧
    (∀ bytes t, inp.load = some bytes → create bytes = .ok t → cycle inp s = .next t) ∧
    (inp.load = some [] → cycle inp s = .fault .emptyProgram)

/-- 92_eei_decisions.md D5 (log entry 8): a load while reset is not asserted is refused, whatever else is asserted. -/
def Obligations.LoadOutsideResetIsRefused : Prop :=
  ∀ (inp : Inputs) (s : State) (bytes : List Byte), inp.reset = false → inp.load = some bytes →
    cycle inp s = .refused .loadOutsideReset

/-- 20_memory.md R57, R61, 40_executor.md R100, R112: the outputs show the registers and flags, each RAM byte as its two
nibbles, the even one low, each ROM byte, and RAM nibbles 0..3 as the display view. The port list is the spec's own choice
(R100, decisions D1 and D10; log entry 18); the record of the outputs and the address order of the display view are the
model's (log entries 18 and 16). -/
def Obligations.OutputsShowTheState : Prop :=
  ∀ s : State,
    ((outputs s).x, (outputs s).y, (outputs s).z) = (s.x, s.y, s.z) ∧
    ((outputs s).pc, (outputs s).loc, (outputs s).tpc) = (s.pc, s.loc, s.tpc) ∧
    ((outputs s).c, (outputs s).uc) = (s.c, s.uc) ∧
    ((outputs s).chgRegs, (outputs s).chgMem, (outputs s).chgDisp) = (s.chg.regs, s.chg.mem, s.chg.disp) ∧
    (outputs s).ram.length = 128 ∧ (outputs s).rom.length = 256 ∧
    (∀ k : Nat, k < 128 → ∃ b : Byte, (outputs s).ram[k]? = some b ∧
      b.toNat = (memRead s (BitVec.ofNat 8 (2 * k))).toNat + 16 * (memRead s (BitVec.ofNat 8 (2 * k + 1))).toNat) ∧
    (∀ a : Byte, (outputs s).rom[a.toNat]? = some (romRead s a)) ∧
    displayView s = [memRead s 0x00#8, memRead s 0x01#8, memRead s 0x02#8, memRead s 0x03#8]

/-! ### The registers -/

/-- 10_state.md R21, R22: WTX and RTX write X whatever it held; ADD and SUB read it, each other X giving another Z, and
keep it; no other instruction reads, writes or stores it; the same of Y with WTY and RTY; both are in [0,15]. -/
def Obligations.XAndYReadersAndWriters : Prop :=
  ∀ (i : Instr) (s : State) (v : Nibble), s.x.toNat ≤ 15 ∧ s.y.toNat ≤ 15 ∧
    (i.mnemonic = .wtx ∨ i.mnemonic = .rtx → exec i (s.setX v) = exec i s) ∧
    (i.mnemonic = .wty ∨ i.mnemonic = .rty → exec i (s.setY v) = exec i s) ∧
    (i.mnemonic = .add ∨ i.mnemonic = .sub →
      ∃ t u w, exec i s = .next t ∧ exec i (s.setX v) = .next u ∧ exec i (s.setY v) = .next w ∧
        t.x = s.x ∧ t.y = s.y ∧ (u.z = t.z ↔ v = s.x) ∧ (w.z = t.z ↔ v = s.y)) ∧
    (i.mnemonic ∉ ([.wtx, .rtx, .add, .sub] : List Mnemonic) →
      ∃ t, exec i s = .next t ∧ exec i (s.setX v) = .next (t.setX v)) ∧
    (i.mnemonic ∉ ([.wty, .rty, .add, .sub] : List Mnemonic) →
      ∃ t, exec i s = .next t ∧ exec i (s.setY v) = .next (t.setY v))

/-- 10_state.md R23: ADD, SUB, WTZ and RTZ write Z whatever it held; ZTR reads it, keeps it and stores it to RAM; no other
instruction reads or writes it; it is in [0,15]. -/
def Obligations.ZReadersAndWriters : Prop :=
  ∀ (i : Instr) (s : State) (v : Nibble), s.z.toNat ≤ 15 ∧
    (i.mnemonic ∈ ([.add, .sub, .wtz, .rtz] : List Mnemonic) → exec i (s.setZ v) = exec i s) ∧
    (i = .ztr → ∃ t, exec i s = .next t ∧ t.z = s.z ∧ memRead t s.loc = s.z) ∧
    (i.mnemonic ∉ ([.add, .sub, .wtz, .rtz, .ztr] : List Mnemonic) →
      ∃ t, exec i s = .next t ∧ exec i (s.setZ v) = .next (t.setZ v))

/-- 10_state.md R27: ADD writes bit 4 of its unmasked sum to C and SUB whether X is at least S, whatever UC is; they read C
only where UC is true; no other instruction reads or writes C; and no instruction's PC depends on C. -/
def Obligations.CarryReadersAndWriters : Prop :=
  (∀ s : State, ∃ t, exec .add s = .next t ∧
    t.c = (s.x.toNat + s.y.toNat + (if s.uc && s.c then 1 else 0)).testBit 4) ∧
  (∀ s : State, ∃ t, exec .sub s = .next t ∧
    t.c = decide (s.y.toNat + (if s.uc && s.c then 1 else 0) ≤ s.x.toNat)) ∧
  ∀ (i : Instr) (s : State) (b : Bool),
    (i = .add ∨ i = .sub → s.uc = false → exec i (s.setC b) = exec i s) ∧
    (i ≠ .add → i ≠ .sub → ∃ t, exec i s = .next t ∧ exec i (s.setC b) = .next (t.setC b)) ∧
    (∃ t u, exec i s = .next t ∧ exec i (s.setC b) = .next u ∧ u.pc = t.pc)

/-- 10_state.md R28: USC inverts UC; ADD and SUB keep it and read it to decide whether C takes part, so that it makes no
difference where C is false and gives another Z where C is true; no other instruction reads or writes it. -/
def Obligations.CarryEnableReadersAndWriters : Prop :=
  ∀ (i : Instr) (s : State) (b : Bool),
    (i = .usc → ∃ t, exec i s = .next t ∧ t.uc = !s.uc) ∧
    (i = .add ∨ i = .sub →
      ∃ t u, exec i s = .next t ∧ exec i (s.setUc b) = .next u ∧ t.uc = s.uc ∧
        (s.c = false → u = t.setUc b) ∧ (s.c = true → (u.z = t.z ↔ b = s.uc))) ∧
    (i ≠ .usc → i ≠ .add → i ≠ .sub → ∃ t, exec i s = .next t ∧ exec i (s.setUc b) = .next (t.setUc b))

/-- 10_state.md R31: WT1 writes the high nibble of LOC and WT2 the low one, each keeping the other; ZTR, RTZ, RTX and RTY
read LOC as their address and keep it; no other instruction reads or writes it. -/
def Obligations.LocReadersAndWriters : Prop :=
  (∀ (imm : Nibble) (s : State), ∃ t, exec (.wt1 imm) s = .next t ∧ highNibble t.loc = imm ∧
    lowNibble t.loc = lowNibble s.loc) ∧
  (∀ (imm : Nibble) (s : State), ∃ t, exec (.wt2 imm) s = .next t ∧ lowNibble t.loc = imm ∧
    highNibble t.loc = highNibble s.loc) ∧
  (∀ s : State, ∃ t u v w, exec .ztr s = .next t ∧ exec .rtz s = .next u ∧ exec .rtx s = .next v ∧
    exec .rty s = .next w ∧ t.loc = s.loc ∧ u.loc = s.loc ∧ v.loc = s.loc ∧ w.loc = s.loc ∧
    memRead t s.loc = s.z ∧ u.z = memRead s s.loc ∧ v.x = memRead s s.loc ∧ w.y = memRead s s.loc) ∧
  ∀ (i : Instr) (s : State) (v : Byte), i.mnemonic ∉ ([.wt1, .wt2, .ztr, .rtz, .rtx, .rty] : List Mnemonic) →
    ∃ t, exec i s = .next t ∧ exec i (s.setLoc v) = .next (t.setLoc v)

/-- 10_state.md R33: PC1 writes the low nibble of TPC and PC2 the high one, each keeping the other; JMP reads TPC and
decrements it modulo 256; no other instruction reads or writes it. -/
def Obligations.TpcReadersAndWriters : Prop :=
  (∀ (imm : Nibble) (s : State), ∃ t, exec (.pc1 imm) s = .next t ∧ lowNibble t.tpc = imm ∧
    highNibble t.tpc = highNibble s.tpc) ∧
  (∀ (imm : Nibble) (s : State), ∃ t, exec (.pc2 imm) s = .next t ∧ highNibble t.tpc = imm ∧
    lowNibble t.tpc = lowNibble s.tpc) ∧
  (∀ s : State, ∃ t, exec .jmp s = .next t ∧ t.tpc.toNat = (s.tpc.toNat + 255) % 256 ∧ t.pc = t.tpc) ∧
  ∀ (i : Instr) (s : State) (v : Byte), i.mnemonic ∉ ([.pc1, .pc2, .jmp] : List Mnemonic) →
    ∃ t, exec i s = .next t ∧ exec i (s.setTpc v) = .next (t.setTpc v)

/-- 10_state.md R36, the frame of every instruction: each completes; a column its row does not write is unchanged; ROM is
unchanged; RAM is unchanged byte by byte unless it is ZTR, and then in every nibble but the one at its RAM address and
in every byte but that nibble's; and what is written depends on the columns its row reads alone. -/
def Obligations.InstructionsWriteOnlyTheirColumns : Prop :=
  (∀ (i : Instr) (s : State), ∃ t, exec i s = .next t ∧
    (∀ k, k ∉ writes i → SameColumn k s t) ∧
    (∀ a : Byte, romRead t a = romRead s a) ∧
    (i ≠ .ztr → ∀ k : Nat, ramByte t k = ramByte s k) ∧
    (i = .ztr → (∀ a : Byte, a ≠ ramAddress s → memRead t a = memRead s a) ∧
      ∀ k : Nat, k ≠ nibbleByte (ramAddress s) → ramByte t k = ramByte s k)) ∧
  ∀ (i : Instr) (s s' : State), (∀ k ∈ reads i, SameColumn k s s') →
    ∃ t t', exec i s = .next t ∧ exec i s' = .next t' ∧ ∀ k ∈ writes i, SameColumn k t t'

/-! ### The memories -/

/-- 20_memory.md R52: nibble 2k is the low half and nibble 2k+1 the high half of RAM byte k. -/
def Obligations.NibblesAreHalvesOfRamBytes : Prop :=
  ∀ (s : State) (k : Nat), k < 128 →
    (memRead s (BitVec.ofNat 8 (2 * k))).toNat = (ramByte s k).toNat % 16 ∧
    (memRead s (BitVec.ofNat 8 (2 * k + 1))).toNat = (ramByte s k).toNat / 16

/-- 20_memory.md R53: MemRead is the spec's formula, a pure function of the address and the RAM, in [0,15]. -/
def Obligations.MemReadFollowsItsFormula : Prop :=
  (∀ (s : State) (a : Byte), (memRead s a).toNat =
    ((ramByte s (a.toNat >>> 1)).toNat >>> (4 * (a.toNat &&& 1))) &&& 0xF) ∧
  (∀ (s : State) (a : Byte), (memRead s a).toNat ≤ 15) ∧
  ∀ (s t : State) (a : Byte), s.ram = t.ram → memRead s a = memRead t a

/-- 20_memory.md R54: MemWrite replaces its nibble in its RAM byte by the spec's formula; every other byte, the sibling
nibble and every other nibble are unchanged. -/
def Obligations.MemWriteChangesOneNibble : Prop :=
  ∀ (s : State) (a : Byte) (v : Nibble),
    (ramByte (memWrite s a v) (a.toNat / 2)).toNat =
      (if a.toNat % 2 = 0 then ((ramByte s (a.toNat / 2)).toNat / 16) * 16 + v.toNat
        else v.toNat * 16 + (ramByte s (a.toNat / 2)).toNat % 16) ∧
    (∀ k : Nat, k ≠ a.toNat / 2 → ramByte (memWrite s a v) k = ramByte s k) ∧
    memRead (memWrite s a v) (a ^^^ 0x01#8) = memRead s (a ^^^ 0x01#8) ∧
    ∀ b : Byte, b ≠ a → memRead (memWrite s a v) b = memRead s b

/-- 20_memory.md R55: a nibble written is read back, and the sibling nibble is unchanged. -/
def Obligations.NibbleRoundTrip : Prop :=
  ∀ (s : State) (a : Byte) (v : Nibble), memRead (memWrite s a v) a = v ∧
    memRead (memWrite s a v) (a ^^^ 0x01#8) = memRead s (a ^^^ 0x01#8)

/-- 20_memory.md R66: after any sequence of writes a read returns the latest one to its address, and what the RAM held
before where there is none; over the RAM of a created machine that is 0. -/
def Obligations.ReadReturnsTheLatestWrite : Prop :=
  (∀ (s : State) (ws : List (Byte × Nibble)) (a : Byte),
    memRead (applyWrites s ws) a = latestWrite ws a (memRead s a)) ∧
  ∀ (rom : Memory) (ws : List (Byte × Nibble)) (a : Byte),
    memRead (applyWrites (State.initial rom) ws) a = latestWrite ws a 0

/-- 20_memory.md R64: no step changes ROM, nor does a port cycle outside reset, and no instruction addresses ROM as data:
over another ROM each instruction has the same effect. -/
def Obligations.RomNeverChangesAfterTheLoad : Prop :=
  (∀ s t : State, step s = .next t → t.rom = s.rom) ∧
  (∀ (inp : Inputs) (s t : State), inp.reset = false → cycle inp s = .next t → t.rom = s.rom) ∧
  ∀ (i : Instr) (s : State) (m : Memory), ∃ t, exec i s = .next t ∧ exec i (s.setRom m) = .next (t.setRom m)

/-- 20_memory.md R65: RAM is all zero when the machine is created; after that no instruction but ZTR changes it, and no
cycle does that runs no ZTR and is no new creation. -/
def Obligations.OnlyZtrChangesRam : Prop :=
  (∀ (bytes : List Byte) (s : State), create bytes = .ok s → ∀ a : Byte, memRead s a = 0) ∧
  (∀ (i : Instr) (s : State), i ≠ .ztr → ∃ t, exec i s = .next t ∧ t.ram = s.ram) ∧
  ∀ (inp : Inputs) (s t : State), inp.reset = false → (inp.stepReq = false ∨ decode (fetch s) ≠ .ztr) →
    cycle inp s = .next t → t.ram = s.ram

/-! ### Invariants -/

/-- At reset both memories are in canonical form and within the sizes of 20_memory.md R50, and so they are in every created
machine, over every image a load makes; byte 255 of such an image is 0x00 (R63). The canonical form is the model's own
(log entry 5; what an unlisted byte reads as follows R63 and R65), and the ROM of State.reset, which lists nothing, is the
model's choice (log entry 1). -/
def Obligations.MemoryFormHoldsAtReset : Prop :=
  MemInv State.reset ∧ ∀ (bytes : List Byte) (s : State), create bytes = .ok s → MemInv s ∧ RomLoaded s

/-- 20_memory.md R50, R56, R60: from every state whose memories are in canonical form (the model's own form, log entry 5),
every step answers a state whose memories are: no step lists an address outside the 128 RAM bytes or the 256 ROM bytes. -/
def Obligations.StepKeepsMemoryForm : Prop :=
  ∀ s t : State, MemInv s → step s = .next t → MemInv t

/-- 00_scope.md R6, 20_memory.md R61, R63: from a machine whose memories are in canonical form and whose ROM byte 255 is
0x00, any sequence of port cycles, loads and resets among them, that does not stop leaves such a machine; and every
created machine is one. The canonical form is the model's own (log entry 5). The reset input and the loads in the sequence
rest on the spec's own decisions D4 and D5 and on the model's reading of them (log entries 7, 8, 9 and 10), its clears on
D3 (log entry 6). -/
def Obligations.CyclesKeepALoadedMachine : Prop :=
  (∀ (inps : List Inputs) (s t : State), MemInv s → RomLoaded s → runCycles inps s = .next t → MemInv t ∧ RomLoaded t) ∧
  ∀ (bytes : List Byte) (inps : List Inputs) (s t : State), create bytes = .ok s → runCycles inps s = .next t →
    MemInv t ∧ RomLoaded t

/-! ### The sixteen instructions: encoding, completion, result and frame -/

/-- 41_nop.md R130. -/
def Obligations.NopDoesNothing : Prop :=
  encode .nop = 0x00#8 ∧ (∀ imm : Nibble, decode (0x0#4 ++ imm) = .nop) ∧ ∀ s : State, exec .nop s = .next s

/-- 42_arithmetic.md R142: Z is the sum modulo 16, C bit 4 of the sum (it is at least 16), CHG.regs is set, and all else is
unchanged. -/
def Obligations.AddGivesSumAndCarry : Prop :=
  encode .add = 0x10#8 ∧ (∀ imm : Nibble, decode (0x1#4 ++ imm) = .add) ∧
  ∀ (s : State) (sum : Nat), sum = s.x.toNat + s.y.toNat + (if s.uc && s.c then 1 else 0) →
    exec .add s = .next { s with
      z := BitVec.ofNat 4 (sum % 16), c := decide (16 ≤ sum), chg := { s.chg with regs := true } }

/-- 42_arithmetic.md R143: Z is X - S modulo 256 and then modulo 16, C is X ≥ S, CHG.regs is set, and all else is
unchanged. -/
def Obligations.SubGivesDifferenceAndNoBorrow : Prop :=
  encode .sub = 0x20#8 ∧ (∀ imm : Nibble, decode (0x2#4 ++ imm) = .sub) ∧
  ∀ (s : State) (sb : Nat), sb = s.y.toNat + (if s.uc && s.c then 1 else 0) →
    exec .sub s = .next { s with
      z := BitVec.ofNat 4 ((256 + s.x.toNat - sb) % 256 % 16), c := decide (sb ≤ s.x.toNat),
      chg := { s.chg with regs := true } }

/-- 42_arithmetic.md R144. -/
def Obligations.UscInvertsCarryEnable : Prop :=
  encode .usc = 0xF0#8 ∧ (∀ imm : Nibble, decode (0xF#4 ++ imm) = .usc) ∧
  ∀ s : State, exec .usc s = .next { s with uc := !s.uc }

/-- 43_immediate_loads.md R170: LOC[7:4] is imm and LOC[3:0] is kept. -/
def Obligations.Wt1WritesHighNibbleOfLoc : Prop :=
  ∀ imm : Nibble, decode (0x3#4 ++ imm) = .wt1 imm ∧ encode (.wt1 imm) = 0x3#4 ++ imm ∧
    ∀ s : State, exec (.wt1 imm) s = .next { s with
      loc := imm ++ s.loc.extractLsb' 0 4, chg := { s.chg with regs := true } }

/-- 43_immediate_loads.md R171: LOC[3:0] is imm and LOC[7:4] is kept. -/
def Obligations.Wt2WritesLowNibbleOfLoc : Prop :=
  ∀ imm : Nibble, decode (0x4#4 ++ imm) = .wt2 imm ∧ encode (.wt2 imm) = 0x4#4 ++ imm ∧
    ∀ s : State, exec (.wt2 imm) s = .next { s with
      loc := s.loc.extractLsb' 4 4 ++ imm, chg := { s.chg with regs := true } }

/-- 43_immediate_loads.md R172. -/
def Obligations.WtxWritesX : Prop :=
  ∀ imm : Nibble, decode (0x5#4 ++ imm) = .wtx imm ∧ encode (.wtx imm) = 0x5#4 ++ imm ∧
    ∀ s : State, exec (.wtx imm) s = .next { s with x := imm, chg := { s.chg with regs := true } }

/-- 43_immediate_loads.md R173. -/
def Obligations.WtyWritesY : Prop :=
  ∀ imm : Nibble, decode (0x6#4 ++ imm) = .wty imm ∧ encode (.wty imm) = 0x6#4 ++ imm ∧
    ∀ s : State, exec (.wty imm) s = .next { s with y := imm, chg := { s.chg with regs := true } }

/-- 43_immediate_loads.md R174. -/
def Obligations.WtzWritesZ : Prop :=
  ∀ imm : Nibble, decode (0x7#4 ++ imm) = .wtz imm ∧ encode (.wtz imm) = 0x7#4 ++ imm ∧
    ∀ s : State, exec (.wtz imm) s = .next { s with z := imm, chg := { s.chg with regs := true } }

/-- 44_memory_transfer.md R190: the nibble at LOC receives Z, the sibling nibble and all other RAM are kept, CHG.mem is set,
CHG.disp is set exactly where LOC is below 4, and all else is unchanged. -/
def Obligations.ZtrStoresZ : Prop :=
  encode .ztr = 0x80#8 ∧ (∀ imm : Nibble, decode (0x8#4 ++ imm) = .ztr) ∧
  ∀ s : State, ∃ t, exec .ztr s = .next t ∧
    t = { s with ram := t.ram, chg := { s.chg with mem := true, disp := s.chg.disp || decide (s.loc.toNat < 4) } } ∧
    memRead t s.loc = s.z ∧ t.ram = (memWrite s s.loc s.z).ram ∧
    ∀ a : Byte, a ≠ s.loc → memRead t a = memRead s a

/-- 44_memory_transfer.md R191: Z receives the nibble at LOC, from its half of its RAM byte. -/
def Obligations.RtzLoadsZ : Prop :=
  encode .rtz = 0x90#8 ∧ (∀ imm : Nibble, decode (0x9#4 ++ imm) = .rtz) ∧
  ∀ s : State, exec .rtz s = .next { s with z := memRead s s.loc, chg := { s.chg with regs := true } }

/-- 44_memory_transfer.md R192: X receives the nibble at LOC; RAM is not written. -/
def Obligations.RtxLoadsX : Prop :=
  encode .rtx = 0xD0#8 ∧ (∀ imm : Nibble, decode (0xD#4 ++ imm) = .rtx) ∧
  ∀ s : State, exec .rtx s = .next { s with x := memRead s s.loc, chg := { s.chg with regs := true } }

/-- 44_memory_transfer.md R193: Y receives the nibble at LOC; RAM is not written. -/
def Obligations.RtyLoadsY : Prop :=
  encode .rty = 0xE0#8 ∧ (∀ imm : Nibble, decode (0xE#4 ++ imm) = .rty) ∧
  ∀ s : State, exec .rty s = .next { s with y := memRead s s.loc, chg := { s.chg with regs := true } }

/-- 45_jump.md R210: TPC[3:0] is imm and TPC[7:4] is kept. -/
def Obligations.Pc1WritesLowNibbleOfTpc : Prop :=
  ∀ imm : Nibble, decode (0xA#4 ++ imm) = .pc1 imm ∧ encode (.pc1 imm) = 0xA#4 ++ imm ∧
    ∀ s : State, exec (.pc1 imm) s = .next { s with
      tpc := s.tpc.extractLsb' 4 4 ++ imm, chg := { s.chg with regs := true } }

/-- 45_jump.md R211: TPC[7:4] is imm and TPC[3:0] is kept. -/
def Obligations.Pc2WritesHighNibbleOfTpc : Prop :=
  ∀ imm : Nibble, decode (0xB#4 ++ imm) = .pc2 imm ∧ encode (.pc2 imm) = 0xB#4 ++ imm ∧
    ∀ s : State, exec (.pc2 imm) s = .next { s with
      tpc := imm ++ s.tpc.extractLsb' 0 4, chg := { s.chg with regs := true } }

/-- 45_jump.md R212: TPC is decremented modulo 256 and PC receives the decremented value; at the end of the step PC is the
old TPC; nothing else changes. -/
def Obligations.JmpGoesToTpcAndLeavesItDecremented : Prop :=
  encode .jmp = 0xC0#8 ∧ (∀ imm : Nibble, decode (0xC#4 ++ imm) = .jmp) ∧
  ∀ (s : State) (d : Byte), d = BitVec.ofNat 8 ((s.tpc.toNat + 255) % 256) →
    exec .jmp s = .next { s with tpc := d, pc := d } ∧
    finishStep (exec .jmp s) = .next { s with tpc := d, pc := s.tpc }

/-! ### Arithmetic and jumps over several steps -/

/-- 42_arithmetic.md R145: the laws of ADD and SUB over the integers: results modulo 16, and the 8-bit wrap followed by the
mask is reduction modulo 16. -/
def Obligations.ArithmeticIsModuloSixteen : Prop :=
  ∀ (s : State) (cin : Nat), cin = (if s.uc && s.c then 1 else 0) →
    (∃ t, exec .add s = .next t ∧ t.z.toNat = (s.x.toNat + s.y.toNat + cin) % 16 ∧
      (t.c = true ↔ 16 ≤ s.x.toNat + s.y.toNat + cin)) ∧
    (∃ t, exec .sub s = .next t ∧ (t.z.toNat : Int) = ((s.x.toNat : Int) - s.y.toNat - cin) % 16 ∧
      (t.c = true ↔ s.y.toNat + cin ≤ s.x.toNat)) ∧
    ∀ raw : Byte, (maskNibble raw).toNat = raw.toNat % 16

/-- 42_arithmetic.md R146: ADD on each pair of nibbles from the least significant on is addition of the numbers they stand
for, at any length: the Z nibbles and the last C give the sum of the operands. Either UC is true throughout, and the first
C counts (nothing is added where it is false), or UC is false for the first ADD, whatever C is, and a USC then makes it
true for the others. -/
def Obligations.ChainedAddIsMultiNibbleAddition : Prop :=
  (∀ (ps : List (Nibble × Nibble)) (s : State), s.uc = true →
    ∃ zs t, chainAdd ps s = some (zs, t) ∧ zs.length = ps.length ∧ t.uc = true ∧
      nibblesValue zs + 16 ^ ps.length * t.c.toNat =
        nibblesValue (ps.map Prod.fst) + nibblesValue (ps.map Prod.snd) + s.c.toNat) ∧
  ∀ (x y : Nibble) (ps : List (Nibble × Nibble)) (s : State), s.uc = false →
    ∃ zs t u, runInstrs [.wtx x, .wty y, .add, .usc] s = .next t ∧ chainAdd ps t = some (zs, u) ∧
      zs.length = ps.length ∧ u.uc = true ∧
      nibblesValue (t.z :: zs) + 16 ^ (ps.length + 1) * u.c.toNat =
        nibblesValue (x :: ps.map Prod.fst) + nibblesValue (y :: ps.map Prod.snd)

/-- 42_arithmetic.md R143, its last corner case: with UC true, the second of two chained SUBs subtracts one more exactly
when the first did not borrow. -/
def Obligations.ChainedSubTakesOneMoreWithoutBorrow : Prop :=
  ∀ (x0 y0 x1 y1 : Nibble) (s : State), s.uc = true →
    ∃ t u, runInstrs [.wtx x0, .wty y0, .sub] s = .next t ∧ runInstrs [.wtx x1, .wty y1, .sub] t = .next u ∧
      (u.z.toNat : Int) =
        ((x1.toNat : Int) - y1.toNat - (if y0.toNat + s.c.toNat ≤ x0.toNat then 1 else 0)) % 16

/-- 45_jump.md R213: a JMP executed without reloading TPC after an earlier JMP, whatever other instructions run between the
two, lands one address lower than the earlier one did; reloading the low nibble alone restores the target exactly where
that nibble is not 0, and reloading both always does. The first clause counts the steps between the JMPs by n; with n = 0
the second JMP is the very next instruction. -/
def Obligations.JmpDecrementPersists : Prop :=
  (∀ (n : Nat) (s t v : State), decode (fetch s) = .jmp → step s = .next t →
    (∀ (k : Nat) (w : State), k < n → Sys2Proof.core.run k t = .next w →
      (decode (fetch w)).mnemonic ∉ ([.pc1, .pc2, .jmp] : List Mnemonic)) →
    Sys2Proof.core.run n t = .next v → decode (fetch v) = .jmp →
    ∃ u, step v = .next u ∧ t.pc = s.tpc ∧ u.pc.toNat = (s.tpc.toNat + 255) % 256) ∧
  ∀ s : State, ∃ t u, runInstrs [.jmp, .pc1 (lowNibble s.tpc)] s = .next t ∧
    (t.tpc = s.tpc ↔ lowNibble s.tpc ≠ 0) ∧
    runInstrs [.jmp, .pc1 (lowNibble s.tpc), .pc2 (highNibble s.tpc)] s = .next u ∧ u.tpc = s.tpc

/-- 45_jump.md R215: GOTO L reaches L from every state, and its three steps change nothing but PC, TPC and CHG.regs, TPC
being L - 1 modulo 256 after them; so at L itself they repeat for ever: a second pass changes nothing at all. -/
def Obligations.GotoIdleLoopRepeats : Prop :=
  ∀ (l : Byte) (s : State), ∃ t,
    runInstrs [.pc1 (lowNibble l), .pc2 (highNibble l), .jmp] s = .next t ∧
    t = { s with pc := l, tpc := BitVec.ofNat 8 ((l.toNat + 255) % 256), chg := { s.chg with regs := true } } ∧
    runInstrs [.pc1 (lowNibble l), .pc2 (highNibble l), .jmp] t = .next t

/-- 70_reset_and_hazards.md R263: an instruction sees every effect of the one before it, for every pair of instructions.
First clause, for every instruction i with t the state its step leaves: t holds each value i writes, and every instruction
that reads a register, a flag or RAM, run right after i, reads it as it is in t. Second to fourth clause, R263's own pairs:
a load after ZTR reads the stored nibble; a JMP after PC1 or PC2 uses the new TPC; an ADD after an ADD uses the new C. Last
clause: after a JMP the instruction at the target is the next one. -/
def Obligations.NextInstructionSeesEveryEffect : Prop :=
  (∀ (i : Instr) (s : State), ∃ t, finishStep (exec i s) = .next t ∧
    ((∀ imm, i = .wtx imm → t.x = imm) ∧ (∀ imm, i = .wty imm → t.y = imm) ∧ (∀ imm, i = .wtz imm → t.z = imm) ∧
      (i = .rtx → t.x = memRead s s.loc) ∧ (i = .rty → t.y = memRead s s.loc) ∧ (i = .rtz → t.z = memRead s s.loc) ∧
      (∀ imm, i = .wt1 imm → t.loc = imm ++ lowNibble s.loc) ∧ (∀ imm, i = .wt2 imm → t.loc = highNibble s.loc ++ imm) ∧
      (∀ imm, i = .pc1 imm → t.tpc = highNibble s.tpc ++ imm) ∧ (∀ imm, i = .pc2 imm → t.tpc = imm ++ lowNibble s.tpc) ∧
      (i = .add → t.z.toNat = (s.x.toNat + s.y.toNat + (s.uc && s.c).toNat) % 16 ∧
        t.c = decide (16 ≤ s.x.toNat + s.y.toNat + (s.uc && s.c).toNat)) ∧
      (i = .sub → (t.z.toNat : Int) = ((s.x.toNat : Int) - s.y.toNat - (s.uc && s.c).toNat) % 16 ∧
        t.c = decide (s.y.toNat + (s.uc && s.c).toNat ≤ s.x.toNat)) ∧
      (i = .usc → t.uc = !s.uc) ∧ (i = .ztr → memRead t s.loc = s.z) ∧
      (i = .jmp → t.pc = s.tpc ∧ t.tpc = s.tpc - 0x01#8)) ∧
    (∃ u, runInstrs [i, .add] s = .next u ∧ u.z.toNat = (t.x.toNat + t.y.toNat + (t.uc && t.c).toNat) % 16 ∧
      u.c = decide (16 ≤ t.x.toNat + t.y.toNat + (t.uc && t.c).toNat)) ∧
    (∃ u, runInstrs [i, .sub] s = .next u ∧
      (u.z.toNat : Int) = ((t.x.toNat : Int) - t.y.toNat - (t.uc && t.c).toNat) % 16 ∧
      u.c = decide (t.y.toNat + (t.uc && t.c).toNat ≤ t.x.toNat)) ∧
    (∃ u, runInstrs [i, .usc] s = .next u ∧ u.uc = !t.uc) ∧
    (∃ u, runInstrs [i, .ztr] s = .next u ∧ memRead u t.loc = t.z ∧ ∀ a, a ≠ t.loc → memRead u a = memRead t a) ∧
    (∃ u, runInstrs [i, .rtz] s = .next u ∧ u.z = memRead t t.loc) ∧
    (∃ u, runInstrs [i, .rtx] s = .next u ∧ u.x = memRead t t.loc) ∧
    (∃ u, runInstrs [i, .rty] s = .next u ∧ u.y = memRead t t.loc) ∧
    (∃ u, runInstrs [i, .jmp] s = .next u ∧ u.pc = t.tpc ∧ u.tpc = t.tpc - 0x01#8) ∧
    (∀ imm, ∃ u, runInstrs [i, .wt1 imm] s = .next u ∧ u.loc = imm ++ lowNibble t.loc) ∧
    (∀ imm, ∃ u, runInstrs [i, .wt2 imm] s = .next u ∧ u.loc = highNibble t.loc ++ imm) ∧
    (∀ imm, ∃ u, runInstrs [i, .pc1 imm] s = .next u ∧ u.tpc = highNibble t.tpc ++ imm) ∧
    (∀ imm, ∃ u, runInstrs [i, .pc2 imm] s = .next u ∧ u.tpc = imm ++ lowNibble t.tpc)) ∧
  (∀ s : State, ∃ t u v, runInstrs [.ztr, .rtz] s = .next t ∧ t.z = s.z ∧
    runInstrs [.ztr, .rtx] s = .next u ∧ u.x = s.z ∧ runInstrs [.ztr, .rty] s = .next v ∧ v.y = s.z) ∧
  (∀ (imm : Nibble) (s : State), ∃ t u, runInstrs [.pc1 imm, .jmp] s = .next t ∧ t.pc = highNibble s.tpc ++ imm ∧
    runInstrs [.pc2 imm, .jmp] s = .next u ∧ u.pc = imm ++ lowNibble s.tpc) ∧
  (∀ s : State, s.uc = true → ∃ t u, runInstrs [.add] s = .next t ∧ runInstrs [.add, .add] s = .next u ∧
    u.z.toNat = (s.x.toNat + s.y.toNat + t.c.toNat) % 16) ∧
  ∀ s : State, decode (fetch s) = .jmp →
    ∃ t u, step s = .next t ∧ step t = .next u ∧ finishStep (exec (decode (romRead s s.tpc)) t) = .next u
end

