-- ==== Sys2Proof/Laws/State.lean ====
section
/-! SUPPORT. One lemma per field per update of State, true by rfl, so that no later proof unfolds a record update; and
the same for the change-flag set. -/

namespace Sys2Proof.Machine

section
variable (s : State) (v : Nibble)
@[simp] theorem State.setX_x : (s.setX v).x = v := rfl
@[simp] theorem State.setX_y : (s.setX v).y = s.y := rfl
@[simp] theorem State.setX_z : (s.setX v).z = s.z := rfl
@[simp] theorem State.setX_loc : (s.setX v).loc = s.loc := rfl
@[simp] theorem State.setX_pc : (s.setX v).pc = s.pc := rfl
@[simp] theorem State.setX_tpc : (s.setX v).tpc = s.tpc := rfl
@[simp] theorem State.setX_c : (s.setX v).c = s.c := rfl
@[simp] theorem State.setX_uc : (s.setX v).uc = s.uc := rfl
@[simp] theorem State.setX_chg : (s.setX v).chg = s.chg := rfl
@[simp] theorem State.setX_ram : (s.setX v).ram = s.ram := rfl
@[simp] theorem State.setX_rom : (s.setX v).rom = s.rom := rfl
end

section
variable (s : State) (v : Nibble)
@[simp] theorem State.setY_x : (s.setY v).x = s.x := rfl
@[simp] theorem State.setY_y : (s.setY v).y = v := rfl
@[simp] theorem State.setY_z : (s.setY v).z = s.z := rfl
@[simp] theorem State.setY_loc : (s.setY v).loc = s.loc := rfl
@[simp] theorem State.setY_pc : (s.setY v).pc = s.pc := rfl
@[simp] theorem State.setY_tpc : (s.setY v).tpc = s.tpc := rfl
@[simp] theorem State.setY_c : (s.setY v).c = s.c := rfl
@[simp] theorem State.setY_uc : (s.setY v).uc = s.uc := rfl
@[simp] theorem State.setY_chg : (s.setY v).chg = s.chg := rfl
@[simp] theorem State.setY_ram : (s.setY v).ram = s.ram := rfl
@[simp] theorem State.setY_rom : (s.setY v).rom = s.rom := rfl
end

section
variable (s : State) (v : Nibble)
@[simp] theorem State.setZ_x : (s.setZ v).x = s.x := rfl
@[simp] theorem State.setZ_y : (s.setZ v).y = s.y := rfl
@[simp] theorem State.setZ_z : (s.setZ v).z = v := rfl
@[simp] theorem State.setZ_loc : (s.setZ v).loc = s.loc := rfl
@[simp] theorem State.setZ_pc : (s.setZ v).pc = s.pc := rfl
@[simp] theorem State.setZ_tpc : (s.setZ v).tpc = s.tpc := rfl
@[simp] theorem State.setZ_c : (s.setZ v).c = s.c := rfl
@[simp] theorem State.setZ_uc : (s.setZ v).uc = s.uc := rfl
@[simp] theorem State.setZ_chg : (s.setZ v).chg = s.chg := rfl
@[simp] theorem State.setZ_ram : (s.setZ v).ram = s.ram := rfl
@[simp] theorem State.setZ_rom : (s.setZ v).rom = s.rom := rfl
end

section
variable (s : State) (v : Byte)
@[simp] theorem State.setLoc_x : (s.setLoc v).x = s.x := rfl
@[simp] theorem State.setLoc_y : (s.setLoc v).y = s.y := rfl
@[simp] theorem State.setLoc_z : (s.setLoc v).z = s.z := rfl
@[simp] theorem State.setLoc_loc : (s.setLoc v).loc = v := rfl
@[simp] theorem State.setLoc_pc : (s.setLoc v).pc = s.pc := rfl
@[simp] theorem State.setLoc_tpc : (s.setLoc v).tpc = s.tpc := rfl
@[simp] theorem State.setLoc_c : (s.setLoc v).c = s.c := rfl
@[simp] theorem State.setLoc_uc : (s.setLoc v).uc = s.uc := rfl
@[simp] theorem State.setLoc_chg : (s.setLoc v).chg = s.chg := rfl
@[simp] theorem State.setLoc_ram : (s.setLoc v).ram = s.ram := rfl
@[simp] theorem State.setLoc_rom : (s.setLoc v).rom = s.rom := rfl
end

section
variable (s : State) (v : Byte)
@[simp] theorem State.setPc_x : (s.setPc v).x = s.x := rfl
@[simp] theorem State.setPc_y : (s.setPc v).y = s.y := rfl
@[simp] theorem State.setPc_z : (s.setPc v).z = s.z := rfl
@[simp] theorem State.setPc_loc : (s.setPc v).loc = s.loc := rfl
@[simp] theorem State.setPc_pc : (s.setPc v).pc = v := rfl
@[simp] theorem State.setPc_tpc : (s.setPc v).tpc = s.tpc := rfl
@[simp] theorem State.setPc_c : (s.setPc v).c = s.c := rfl
@[simp] theorem State.setPc_uc : (s.setPc v).uc = s.uc := rfl
@[simp] theorem State.setPc_chg : (s.setPc v).chg = s.chg := rfl
@[simp] theorem State.setPc_ram : (s.setPc v).ram = s.ram := rfl
@[simp] theorem State.setPc_rom : (s.setPc v).rom = s.rom := rfl
end

section
variable (s : State) (v : Byte)
@[simp] theorem State.setTpc_x : (s.setTpc v).x = s.x := rfl
@[simp] theorem State.setTpc_y : (s.setTpc v).y = s.y := rfl
@[simp] theorem State.setTpc_z : (s.setTpc v).z = s.z := rfl
@[simp] theorem State.setTpc_loc : (s.setTpc v).loc = s.loc := rfl
@[simp] theorem State.setTpc_pc : (s.setTpc v).pc = s.pc := rfl
@[simp] theorem State.setTpc_tpc : (s.setTpc v).tpc = v := rfl
@[simp] theorem State.setTpc_c : (s.setTpc v).c = s.c := rfl
@[simp] theorem State.setTpc_uc : (s.setTpc v).uc = s.uc := rfl
@[simp] theorem State.setTpc_chg : (s.setTpc v).chg = s.chg := rfl
@[simp] theorem State.setTpc_ram : (s.setTpc v).ram = s.ram := rfl
@[simp] theorem State.setTpc_rom : (s.setTpc v).rom = s.rom := rfl
end

section
variable (s : State) (v : Bool)
@[simp] theorem State.setC_x : (s.setC v).x = s.x := rfl
@[simp] theorem State.setC_y : (s.setC v).y = s.y := rfl
@[simp] theorem State.setC_z : (s.setC v).z = s.z := rfl
@[simp] theorem State.setC_loc : (s.setC v).loc = s.loc := rfl
@[simp] theorem State.setC_pc : (s.setC v).pc = s.pc := rfl
@[simp] theorem State.setC_tpc : (s.setC v).tpc = s.tpc := rfl
@[simp] theorem State.setC_c : (s.setC v).c = v := rfl
@[simp] theorem State.setC_uc : (s.setC v).uc = s.uc := rfl
@[simp] theorem State.setC_chg : (s.setC v).chg = s.chg := rfl
@[simp] theorem State.setC_ram : (s.setC v).ram = s.ram := rfl
@[simp] theorem State.setC_rom : (s.setC v).rom = s.rom := rfl
end

section
variable (s : State) (v : Bool)
@[simp] theorem State.setUc_x : (s.setUc v).x = s.x := rfl
@[simp] theorem State.setUc_y : (s.setUc v).y = s.y := rfl
@[simp] theorem State.setUc_z : (s.setUc v).z = s.z := rfl
@[simp] theorem State.setUc_loc : (s.setUc v).loc = s.loc := rfl
@[simp] theorem State.setUc_pc : (s.setUc v).pc = s.pc := rfl
@[simp] theorem State.setUc_tpc : (s.setUc v).tpc = s.tpc := rfl
@[simp] theorem State.setUc_c : (s.setUc v).c = s.c := rfl
@[simp] theorem State.setUc_uc : (s.setUc v).uc = v := rfl
@[simp] theorem State.setUc_chg : (s.setUc v).chg = s.chg := rfl
@[simp] theorem State.setUc_ram : (s.setUc v).ram = s.ram := rfl
@[simp] theorem State.setUc_rom : (s.setUc v).rom = s.rom := rfl
end

section
variable (s : State) (v : ChangeFlags)
@[simp] theorem State.setChg_x : (s.setChg v).x = s.x := rfl
@[simp] theorem State.setChg_y : (s.setChg v).y = s.y := rfl
@[simp] theorem State.setChg_z : (s.setChg v).z = s.z := rfl
@[simp] theorem State.setChg_loc : (s.setChg v).loc = s.loc := rfl
@[simp] theorem State.setChg_pc : (s.setChg v).pc = s.pc := rfl
@[simp] theorem State.setChg_tpc : (s.setChg v).tpc = s.tpc := rfl
@[simp] theorem State.setChg_c : (s.setChg v).c = s.c := rfl
@[simp] theorem State.setChg_uc : (s.setChg v).uc = s.uc := rfl
@[simp] theorem State.setChg_chg : (s.setChg v).chg = v := rfl
@[simp] theorem State.setChg_ram : (s.setChg v).ram = s.ram := rfl
@[simp] theorem State.setChg_rom : (s.setChg v).rom = s.rom := rfl
end

section
variable (s : State) (v : Memory)
@[simp] theorem State.setRam_x : (s.setRam v).x = s.x := rfl
@[simp] theorem State.setRam_y : (s.setRam v).y = s.y := rfl
@[simp] theorem State.setRam_z : (s.setRam v).z = s.z := rfl
@[simp] theorem State.setRam_loc : (s.setRam v).loc = s.loc := rfl
@[simp] theorem State.setRam_pc : (s.setRam v).pc = s.pc := rfl
@[simp] theorem State.setRam_tpc : (s.setRam v).tpc = s.tpc := rfl
@[simp] theorem State.setRam_c : (s.setRam v).c = s.c := rfl
@[simp] theorem State.setRam_uc : (s.setRam v).uc = s.uc := rfl
@[simp] theorem State.setRam_chg : (s.setRam v).chg = s.chg := rfl
@[simp] theorem State.setRam_ram : (s.setRam v).ram = v := rfl
@[simp] theorem State.setRam_rom : (s.setRam v).rom = s.rom := rfl
end

section
variable (s : State) (v : Memory)
@[simp] theorem State.setRom_x : (s.setRom v).x = s.x := rfl
@[simp] theorem State.setRom_y : (s.setRom v).y = s.y := rfl
@[simp] theorem State.setRom_z : (s.setRom v).z = s.z := rfl
@[simp] theorem State.setRom_loc : (s.setRom v).loc = s.loc := rfl
@[simp] theorem State.setRom_pc : (s.setRom v).pc = s.pc := rfl
@[simp] theorem State.setRom_tpc : (s.setRom v).tpc = s.tpc := rfl
@[simp] theorem State.setRom_c : (s.setRom v).c = s.c := rfl
@[simp] theorem State.setRom_uc : (s.setRom v).uc = s.uc := rfl
@[simp] theorem State.setRom_chg : (s.setRom v).chg = s.chg := rfl
@[simp] theorem State.setRom_ram : (s.setRom v).ram = s.ram := rfl
@[simp] theorem State.setRom_rom : (s.setRom v).rom = v := rfl
end

section
variable (sets : ChangeFlags) (s : State)
@[simp] theorem raise_x : (raise sets s).x = s.x := rfl
@[simp] theorem raise_y : (raise sets s).y = s.y := rfl
@[simp] theorem raise_z : (raise sets s).z = s.z := rfl
@[simp] theorem raise_loc : (raise sets s).loc = s.loc := rfl
@[simp] theorem raise_pc : (raise sets s).pc = s.pc := rfl
@[simp] theorem raise_tpc : (raise sets s).tpc = s.tpc := rfl
@[simp] theorem raise_c : (raise sets s).c = s.c := rfl
@[simp] theorem raise_uc : (raise sets s).uc = s.uc := rfl
@[simp] theorem raise_chg : (raise sets s).chg = s.chg.union sets := rfl
@[simp] theorem raise_ram : (raise sets s).ram = s.ram := rfl
@[simp] theorem raise_rom : (raise sets s).rom = s.rom := rfl
end

section
variable (f g : ChangeFlags)
@[simp] theorem ChangeFlags.union_regs : (f.union g).regs = (f.regs || g.regs) := rfl
@[simp] theorem ChangeFlags.union_mem : (f.union g).mem = (f.mem || g.mem) := rfl
@[simp] theorem ChangeFlags.union_disp : (f.union g).disp = (f.disp || g.disp) := rfl
end

@[simp] theorem regsOnly_regs : regsOnly.regs = true := rfl
@[simp] theorem regsOnly_mem : regsOnly.mem = false := rfl
@[simp] theorem regsOnly_disp : regsOnly.disp = false := rfl
@[simp] theorem ChangeFlags.clear_regs : ChangeFlags.clear.regs = false := rfl
@[simp] theorem ChangeFlags.clear_mem : ChangeFlags.clear.mem = false := rfl
@[simp] theorem ChangeFlags.clear_disp : ChangeFlags.clear.disp = false := rfl

section
variable (a : Byte)
@[simp] theorem storeSets_regs : (storeSets a).regs = false := rfl
@[simp] theorem storeSets_mem : (storeSets a).mem = true := rfl
@[simp] theorem storeSets_disp : (storeSets a).disp = decide (a.toNat < Config.displayNibbles) := rfl
end

section
variable (rom : Memory)
@[simp] theorem State.initial_x : (State.initial rom).x = 0x0#4 := rfl
@[simp] theorem State.initial_y : (State.initial rom).y = 0x0#4 := rfl
@[simp] theorem State.initial_z : (State.initial rom).z = 0x0#4 := rfl
@[simp] theorem State.initial_loc : (State.initial rom).loc = 0x00#8 := rfl
@[simp] theorem State.initial_pc : (State.initial rom).pc = 0x00#8 := rfl
@[simp] theorem State.initial_tpc : (State.initial rom).tpc = 0x00#8 := rfl
@[simp] theorem State.initial_c : (State.initial rom).c = false := rfl
@[simp] theorem State.initial_uc : (State.initial rom).uc = false := rfl
@[simp] theorem State.initial_chg : (State.initial rom).chg = ChangeFlags.clear := rfl
@[simp] theorem State.initial_ram : (State.initial rom).ram = [] := rfl
@[simp] theorem State.initial_rom : (State.initial rom).rom = rom := rfl
end

end Sys2Proof.Machine
end

