-- ==== Sys2Proof/Laws/Memory.lean ====
section
/-! SUPPORT. What the byte-memory operations can do: a read after a write, and that every operation keeps the canonical
form. Reads after writes hold for every list, canonical or not. -/

namespace Sys2Proof.Machine

@[simp] theorem Memory.read_nil (a : Nat) : Memory.read [] a = Memory.unlisted := rfl

theorem Memory.read_cons (k : Nat) (b : Byte) (m : Memory) (a : Nat) :
    Memory.read ((k, b) :: m) a = if k = a then b else Memory.read m a := rfl

theorem Memory.read_erase (m : Memory) (a a' : Nat) :
    Memory.read (Memory.erase m a) a' = if a = a' then Memory.unlisted else Memory.read m a' := by
  induction m with
  | nil => simp [Memory.erase]
  | cons c m ih =>
    obtain ⟨k, b⟩ := c
    simp only [Memory.erase]
    split
    · next hk => subst hk; rw [ih, Memory.read_cons]; split <;> simp_all
    · next hk =>
      rw [Memory.read_cons, Memory.read_cons, ih]
      split
      · next h => subst h; simp [Ne.symm hk]
      · rfl

theorem Memory.erase_unlists (m : Memory) (a : Nat) : a ∉ (Memory.erase m a).map Prod.fst := by
  induction m with
  | nil => simp [Memory.erase]
  | cons c m ih =>
    obtain ⟨k, b⟩ := c
    simp only [Memory.erase]
    split
    · exact ih
    · next hk => simp only [List.map_cons, List.mem_cons, not_or]; exact ⟨Ne.symm hk, ih⟩

theorem Memory.read_insert (m : Memory) (a a' : Nat) (v : Byte) (h : a ∉ m.map Prod.fst) :
    Memory.read (Memory.insert m a v) a' = if a = a' then v else Memory.read m a' := by
  induction m with
  | nil => rfl
  | cons c m ih =>
    obtain ⟨k, b⟩ := c
    simp only [List.map_cons, List.mem_cons, not_or] at h
    simp only [Memory.insert]
    split
    · rfl
    · rw [Memory.read_cons, ih h.2, Memory.read_cons]
      split
      · next hk => subst hk; simp [h.1]
      · rfl

/-- All that a byte write does to a later byte read. -/
theorem Memory.read_write (m : Memory) (a a' : Nat) (v : Byte) :
    Memory.read (Memory.write m a v) a' = if a = a' then v else Memory.read m a' := by
  unfold Memory.write
  split
  · next h => rw [Memory.read_erase, h]
  · rw [Memory.read_insert _ _ _ _ (Memory.erase_unlists m a), Memory.read_erase]
    split <;> rfl

@[simp] theorem Memory.read_write_same (m : Memory) (a : Nat) (v : Byte) :
    Memory.read (Memory.write m a v) a = v := by simp [Memory.read_write]

theorem Memory.read_write_other (m : Memory) {a a' : Nat} (v : Byte) (h : a ≠ a') :
    Memory.read (Memory.write m a v) a' = Memory.read m a' := by simp [Memory.read_write, h]

@[simp] theorem Memory.wf_nil (size : Nat) : Memory.wf size [] = true := rfl

/-- The canonical form of a nonempty list, as a proposition. -/
theorem Memory.wfFrom_cons (size lo k : Nat) (b : Byte) (m : Memory) :
    Memory.wfFrom size lo ((k, b) :: m) = true ↔
      lo ≤ k ∧ k < size ∧ b ≠ Memory.unlisted ∧ Memory.wfFrom size (k + 1) m = true := by
  simp [Memory.wfFrom, and_assoc]

theorem Memory.wfFrom_weaken {size lo lo' : Nat} {m : Memory} (hlo : lo' ≤ lo)
    (h : Memory.wfFrom size lo m = true) : Memory.wfFrom size lo' m = true := by
  cases m with
  | nil => rfl
  | cons c m =>
    obtain ⟨k, b⟩ := c
    rw [Memory.wfFrom_cons] at h ⊢
    exact ⟨Nat.le_trans hlo h.1, h.2⟩

theorem Memory.wfFrom_erase {size : Nat} (a : Nat) (m : Memory) : ∀ {lo : Nat},
    Memory.wfFrom size lo m = true → Memory.wfFrom size lo (Memory.erase m a) = true := by
  induction m with
  | nil => intro _ _; rfl
  | cons c m ih =>
    obtain ⟨k, b⟩ := c
    intro lo h
    rw [Memory.wfFrom_cons] at h
    simp only [Memory.erase]
    split
    · exact ih (Memory.wfFrom_weaken (by omega) h.2.2.2)
    · rw [Memory.wfFrom_cons]
      exact ⟨h.1, h.2.1, h.2.2.1, ih h.2.2.2⟩

theorem Memory.wfFrom_insert {size a : Nat} {v : Byte} (ha : a < size) (hv : v ≠ Memory.unlisted) (m : Memory) :
    ∀ {lo : Nat}, lo ≤ a → a ∉ m.map Prod.fst → Memory.wfFrom size lo m = true →
      Memory.wfFrom size lo (Memory.insert m a v) = true := by
  induction m with
  | nil =>
    intro lo hlo _ _
    simp only [Memory.insert]
    rw [Memory.wfFrom_cons]
    exact ⟨hlo, ha, hv, rfl⟩
  | cons c m ih =>
    obtain ⟨k, b⟩ := c
    intro lo hlo hn h
    simp only [List.map_cons, List.mem_cons, not_or] at hn
    have h' := h
    rw [Memory.wfFrom_cons] at h'
    simp only [Memory.insert]
    split
    · next hak =>
      rw [Memory.wfFrom_cons]
      refine ⟨hlo, ha, hv, ?_⟩
      rw [Memory.wfFrom_cons]
      exact ⟨hak, h'.2⟩
    · rw [Memory.wfFrom_cons]
      have hn1 := hn.1
      exact ⟨h'.1, h'.2.1, h'.2.2.1, ih (by omega) hn.2 h'.2.2.2⟩

/-- A byte write within the size keeps the canonical form. -/
theorem Memory.wf_write {size a : Nat} {m : Memory} (v : Byte) (ha : a < size) (h : Memory.wf size m = true) :
    Memory.wf size (Memory.write m a v) = true := by
  unfold Memory.write
  split
  · exact Memory.wfFrom_erase a m h
  · next hv =>
    exact Memory.wfFrom_insert ha hv _ (Nat.zero_le a) (Memory.erase_unlists m a) (Memory.wfFrom_erase a m h)

/-- A list of bytes that fits gives a memory in canonical form. -/
theorem Memory.wfFrom_ofBytes {size : Nat} (bs : List Byte) : ∀ {a lo : Nat}, lo ≤ a → a + bs.length ≤ size →
    Memory.wfFrom size lo (Memory.ofBytes a bs) = true := by
  induction bs with
  | nil => intro _ _ _ _; rfl
  | cons b bs ih =>
    intro a lo hlo hfit
    simp only [List.length_cons] at hfit
    simp only [Memory.ofBytes]
    split
    · exact ih (by omega) (by omega)
    · next hb =>
      rw [Memory.wfFrom_cons]
      exact ⟨hlo, by omega, hb, ih (Nat.le_refl _) (by omega)⟩

/-- What the memory of a list of bytes reads as, at any address. -/
theorem Memory.read_ofBytes (bs : List Byte) : ∀ (a k : Nat),
    Memory.read (Memory.ofBytes a bs) k = if a ≤ k then bs.getD (k - a) Memory.unlisted else Memory.unlisted := by
  induction bs with
  | nil => intro a k; simp [Memory.ofBytes]
  | cons b bs ih =>
    intro a k
    have tail : Memory.read (Memory.ofBytes (a + 1) bs) k =
        if a + 1 ≤ k then bs.getD (k - (a + 1)) Memory.unlisted else Memory.unlisted := ih (a + 1) k
    have next : a + 1 ≤ k → k - a = (k - (a + 1)) + 1 := by omega
    have lookup : Memory.read (Memory.ofBytes a (b :: bs)) k =
        if a = k then b else Memory.read (Memory.ofBytes (a + 1) bs) k := by
      simp only [Memory.ofBytes]
      split
      · next hb =>
        split
        · next hak => rw [tail, if_neg (by omega), hb]
        · rfl
      · rfl
    rw [lookup, tail]
    split
    · next h => subst h; simp
    · next h =>
      split
      · next hk => rw [if_pos (by omega), next hk]; simp
      · next hk => rw [if_neg (by omega)]

end Sys2Proof.Machine
end

