-- ==== Sys2Proof/Laws/Ops.lean ====
section
/-! SUPPORT. One lemma for each shared operation that says what it can do: the nibble primitives, the register updates by
nibble, the ALU, and the end of a step. -/

namespace Sys2Proof.Machine

theorem nibbleByte_lt (a : Byte) : nibbleByte a < Config.ramBytes := by
  have h := a.isLt
  simp only [nibbleByte, Config.ramBytes, BitVec.toNat_ushiftRight]
  omega

theorem nibbleByte_eq (a : Byte) : nibbleByte a = a.toNat / 2 := by
  simp [nibbleByte, Nat.shiftRight_eq_div_pow]

theorem nibbleShift_eq (a : Byte) : nibbleShift a = 4 * (a.toNat % 2) := by
  simp [nibbleShift, Nat.and_one_is_mod]

theorem nibbleShift_cases (a : Byte) : nibbleShift a = 0 ∨ nibbleShift a = 4 := by
  rw [nibbleShift_eq]; omega

/-- Two nibble addresses in the same byte with the same place are one address. -/
theorem nibble_address_inj {a b : Byte} (hk : nibbleByte a = nibbleByte b) (hs : nibbleShift a = nibbleShift b) :
    a = b := by
  rw [nibbleByte_eq, nibbleByte_eq] at hk
  rw [nibbleShift_eq, nibbleShift_eq] at hs
  exact BitVec.eq_of_toNat_eq (by omega)

theorem getNibble_putNibble_same (byte : Byte) (v : Nibble) {sh : Nat} (h : sh = 0 ∨ sh = 4) :
    getNibble (putNibble byte sh v) sh = v := by
  rcases h with rfl | rfl <;> revert byte v <;> decide +kernel

theorem getNibble_putNibble_sibling (byte : Byte) (v : Nibble) {sh sh' : Nat} (h : sh = 0 ∨ sh = 4)
    (h' : sh' = 0 ∨ sh' = 4) (hne : sh ≠ sh') : getNibble (putNibble byte sh v) sh' = getNibble byte sh' := by
  rcases h with rfl | rfl <;> rcases h' with rfl | rfl <;> first | exact absurd rfl hne | (revert byte v; decide +kernel)

theorem join_getNibble (byte : Byte) : getNibble byte 4 ++ getNibble byte 0 = byte := by
  revert byte; decide +kernel

section
variable (s : State) (a : Byte) (v : Nibble)
@[simp] theorem memWrite_x : (memWrite s a v).x = s.x := rfl
@[simp] theorem memWrite_y : (memWrite s a v).y = s.y := rfl
@[simp] theorem memWrite_z : (memWrite s a v).z = s.z := rfl
@[simp] theorem memWrite_loc : (memWrite s a v).loc = s.loc := rfl
@[simp] theorem memWrite_pc : (memWrite s a v).pc = s.pc := rfl
@[simp] theorem memWrite_tpc : (memWrite s a v).tpc = s.tpc := rfl
@[simp] theorem memWrite_c : (memWrite s a v).c = s.c := rfl
@[simp] theorem memWrite_uc : (memWrite s a v).uc = s.uc := rfl
@[simp] theorem memWrite_chg : (memWrite s a v).chg = s.chg := rfl
@[simp] theorem memWrite_rom : (memWrite s a v).rom = s.rom := rfl
end

/-- Every RAM byte after a nibble write: the one byte that holds the nibble is changed, in that nibble. -/
theorem ramByte_memWrite (s : State) (a : Byte) (v : Nibble) (k : Nat) :
    ramByte (memWrite s a v) k =
      if nibbleByte a = k then putNibble (ramByte s k) (nibbleShift a) v else ramByte s k := by
  simp only [ramByte, memWrite, State.setRam_ram, Memory.read_write]
  split
  · next h => rw [h]
  · rfl

/-- A nibble write keeps the RAM in canonical form. -/
theorem wf_memWrite (s : State) (a : Byte) (v : Nibble) (h : Memory.wf Config.ramBytes s.ram = true) :
    Memory.wf Config.ramBytes (memWrite s a v).ram = true :=
  Memory.wf_write _ (nibbleByte_lt a) h

/-- The RAM is read by memRead alone through its list. -/
theorem memRead_congr {s t : State} (h : s.ram = t.ram) (a : Byte) : memRead s a = memRead t a := by
  simp only [memRead, h]

theorem withHighNibble_eq (r : Byte) (imm : Nibble) : withHighNibble r imm = joinNibbles imm (lowNibble r) := by
  revert r imm; decide +kernel

theorem withLowNibble_eq (r : Byte) (imm : Nibble) : withLowNibble r imm = joinNibbles (highNibble r) imm := by
  revert r imm; decide +kernel

@[simp] theorem highNibble_join (hi lo : Nibble) : highNibble (joinNibbles hi lo) = hi := by
  revert hi lo; decide +kernel

@[simp] theorem lowNibble_join (hi lo : Nibble) : lowNibble (joinNibbles hi lo) = lo := by
  revert hi lo; decide +kernel

theorem join_nibbles (b : Byte) : joinNibbles (highNibble b) (lowNibble b) = b := by
  revert b; decide +kernel

/-- The sum of ADD is at most 31. -/
theorem aluSum_le (a b : Nibble) (cin : Bool) : aluSum a b cin ≤ 31 := by
  have ha := a.isLt
  have hb := b.isLt
  have hc : cin.toNat ≤ 1 := Bool.toNat_le cin
  simp only [aluSum]
  omega

section
variable (op : AluOp) (s : State)
@[simp] theorem aluStep_x : (aluStep op s).x = s.x := rfl
@[simp] theorem aluStep_y : (aluStep op s).y = s.y := rfl
@[simp] theorem aluStep_loc : (aluStep op s).loc = s.loc := rfl
@[simp] theorem aluStep_pc : (aluStep op s).pc = s.pc := rfl
@[simp] theorem aluStep_tpc : (aluStep op s).tpc = s.tpc := rfl
@[simp] theorem aluStep_uc : (aluStep op s).uc = s.uc := rfl
@[simp] theorem aluStep_chg : (aluStep op s).chg = s.chg := rfl
@[simp] theorem aluStep_ram : (aluStep op s).ram = s.ram := rfl
@[simp] theorem aluStep_rom : (aluStep op s).rom = s.rom := rfl
end

section
variable (s : State)
@[simp] theorem endStep_x : (endStep s).x = s.x := rfl
@[simp] theorem endStep_y : (endStep s).y = s.y := rfl
@[simp] theorem endStep_z : (endStep s).z = s.z := rfl
@[simp] theorem endStep_loc : (endStep s).loc = s.loc := rfl
@[simp] theorem endStep_pc : (endStep s).pc = s.pc + 0x01#8 := rfl
@[simp] theorem endStep_tpc : (endStep s).tpc = s.tpc := rfl
@[simp] theorem endStep_c : (endStep s).c = s.c := rfl
@[simp] theorem endStep_uc : (endStep s).uc = s.uc := rfl
@[simp] theorem endStep_chg : (endStep s).chg = s.chg := rfl
@[simp] theorem endStep_ram : (endStep s).ram = s.ram := rfl
@[simp] theorem endStep_rom : (endStep s).rom = s.rom := rfl
end

/-- A finished step answers a next state exactly where its action 2 did, with PC advanced. -/
theorem finishStep_eq_next {o : Host.Outcome State Fault Refusal} {t : State} :
    finishStep o = .next t ↔ ∃ u, o = .next u ∧ t = endStep u := by
  cases o <;> simp [finishStep, eq_comm]

end Sys2Proof.Machine
end

