-- ==== Sys2Proof/Laws/Exec.lean ====
section
/-! SUPPORT. What exec answers for each instruction, in terms of the shared operations; what a step answers in terms of
exec; and the cases of a port cycle. -/

namespace Sys2Proof.Machine

section
variable (imm : Nibble) (s : State)
theorem exec_nop : exec .nop s = .next s := rfl
theorem exec_add : exec .add s = .next (raise regsOnly (aluStep .add s)) := rfl
theorem exec_sub : exec .sub s = .next (raise regsOnly (aluStep .sub s)) := rfl
theorem exec_wt1 : exec (.wt1 imm) s = .next (raise regsOnly (s.setLoc (withHighNibble s.loc imm))) := rfl
theorem exec_wt2 : exec (.wt2 imm) s = .next (raise regsOnly (s.setLoc (withLowNibble s.loc imm))) := rfl
theorem exec_wtx : exec (.wtx imm) s = .next (raise regsOnly (s.setX imm)) := rfl
theorem exec_wty : exec (.wty imm) s = .next (raise regsOnly (s.setY imm)) := rfl
theorem exec_wtz : exec (.wtz imm) s = .next (raise regsOnly (s.setZ imm)) := rfl
theorem exec_ztr : exec .ztr s = .next (raise (storeSets s.loc) (memWrite s s.loc s.z)) := rfl
theorem exec_rtz : exec .rtz s = .next (raise regsOnly (s.setZ (memRead s s.loc))) := rfl
theorem exec_pc1 : exec (.pc1 imm) s = .next (raise regsOnly (s.setTpc (withLowNibble s.tpc imm))) := rfl
theorem exec_pc2 : exec (.pc2 imm) s = .next (raise regsOnly (s.setTpc (withHighNibble s.tpc imm))) := rfl
theorem exec_jmp : exec .jmp s = .next ((s.setTpc (s.tpc - 0x01#8)).setPc (s.tpc - 0x01#8)) := rfl
theorem exec_rtx : exec .rtx s = .next (raise regsOnly (s.setX (memRead s s.loc))) := rfl
theorem exec_rty : exec .rty s = .next (raise regsOnly (s.setY (memRead s s.loc))) := rfl
theorem exec_usc : exec .usc s = .next (s.setUc (!s.uc)) := rfl
end

/-- A step answers a next state exactly where the decoded instruction's own effect did, with PC advanced. -/
theorem step_eq_next {s t : State} :
    step s = .next t ↔ ∃ u, exec (decode (fetch s)) s = .next u ∧ t = endStep u := finishStep_eq_next

/-- A cycle with reset asserted is a reset cycle, whatever else is asserted. -/
theorem cycle_reset {inp : Inputs} (s : State) (h : inp.reset = true) : cycle inp s = resetCycle inp.load s := by
  simp [cycle, h]

/-- A load without reset is refused. -/
theorem cycle_load {inp : Inputs} (s : State) {bytes : List Byte} (h : inp.reset = false) (hl : inp.load = some bytes) :
    cycle inp s = .refused .loadOutsideReset := by
  simp [cycle, h, hl]

/-- A step request follows the clears. -/
theorem cycle_step {inp : Inputs} (s : State) (h : inp.reset = false) (hl : inp.load = none)
    (hr : inp.stepReq = true) : cycle inp s = step (applyClears inp s) := by
  simp [cycle, h, hl, hr]

/-- With no request only the clears act. -/
theorem cycle_idle {inp : Inputs} (s : State) (h : inp.reset = false) (hl : inp.load = none)
    (hr : inp.stepReq = false) : cycle inp s = .next (applyClears inp s) := by
  simp [cycle, h, hl, hr]

/-- The image a load of at least one byte makes is in canonical form. -/
theorem wf_loadProgram {bytes : List Byte} {rom : Memory} (h : loadProgram bytes = .ok rom) :
    Memory.wf Config.romBytes rom = true := by
  cases bytes with
  | nil => simp [loadProgram] at h
  | cons b bs =>
    simp only [loadProgram, Except.ok.injEq] at h
    subst h
    refine Memory.wfFrom_ofBytes _ (Nat.le_refl 0) ?_
    rw [List.length_take]
    simp only [Config.maxProgramBytes, Config.romBytes]
    omega

end Sys2Proof.Machine
end

