-- ==== Sys2Proof/Laws/PerInstr.lean ====
section
/-! SUPPORT. The per-instruction family EncodedFields: the byte of an instruction holds its opcode in the high nibble, and
its immediate, or 0 where it has none, in the low nibble (30_encoding.md R81, R87); and the instruction is well-formed. -/

namespace Sys2Proof.Laws.EncodedFields

open Sys2Proof Sys2Proof.Machine

/-- The two fields of an instruction's byte, and its well-formedness. -/
def Statement (i : Instr) : Prop :=
  decodeFields (encode i) = (i.mnemonic.opcode, i.immediate?.getD 0x0#4) ∧ i.wellFormed = true

/-- The fields of an encoded instruction, whichever it is. -/
theorem fields_of_encode (i : Instr) : decodeFields (encode i) = (i.mnemonic.opcode, i.immediate?.getD 0x0#4) := by
  simp [decodeFields, encode]

theorem imm_wellFormed (imm : Nibble) : decide (imm.toNat ≤ 15) = true := by
  have := imm.isLt
  simp only [decide_eq_true_eq]
  omega

theorem nop : Statement .nop := ⟨fields_of_encode _, rfl⟩
theorem add : Statement .add := ⟨fields_of_encode _, rfl⟩
theorem sub : Statement .sub := ⟨fields_of_encode _, rfl⟩
theorem wt1 (imm : Nibble) : Statement (.wt1 imm) := ⟨fields_of_encode _, imm_wellFormed imm⟩
theorem wt2 (imm : Nibble) : Statement (.wt2 imm) := ⟨fields_of_encode _, imm_wellFormed imm⟩
theorem wtx (imm : Nibble) : Statement (.wtx imm) := ⟨fields_of_encode _, imm_wellFormed imm⟩
theorem wty (imm : Nibble) : Statement (.wty imm) := ⟨fields_of_encode _, imm_wellFormed imm⟩
theorem wtz (imm : Nibble) : Statement (.wtz imm) := ⟨fields_of_encode _, imm_wellFormed imm⟩
theorem ztr : Statement .ztr := ⟨fields_of_encode _, rfl⟩
theorem rtz : Statement .rtz := ⟨fields_of_encode _, rfl⟩
theorem pc1 (imm : Nibble) : Statement (.pc1 imm) := ⟨fields_of_encode _, imm_wellFormed imm⟩
theorem pc2 (imm : Nibble) : Statement (.pc2 imm) := ⟨fields_of_encode _, imm_wellFormed imm⟩
theorem jmp : Statement .jmp := ⟨fields_of_encode _, rfl⟩
theorem rtx : Statement .rtx := ⟨fields_of_encode _, rfl⟩
theorem rty : Statement .rty := ⟨fields_of_encode _, rfl⟩
theorem usc : Statement .usc := ⟨fields_of_encode _, rfl⟩

end Sys2Proof.Laws.EncodedFields
end

