-- ==== Sys2Proof/Tests/Slice0.lean ====
section
/-! SUPPORT. Tests of one step each with results from the spec's own words, examples and vectors (95_test_vectors.md), the
checks of WellFormed on ill-formed terms, the decoding of words written out bit by bit, and a witness for the hypotheses
of every obligation that has some. -/

namespace Sys2Proof.Tests

open Sys2Proof Sys2Proof.Machine

/-- The next state of an outcome, where it is one. -/
def next? : Host.Outcome State Fault Refusal → Option State
  | .next t => some t
  | .fault _ => none
  | .refused _ => none

/-- The reset state over a program, each byte placed from ROM address 0. -/
def loaded (bytes : List Byte) : State := State.initial (Memory.ofBytes 0 bytes)

/-- The state after one step of a program's first byte, from a given setting of the registers. -/
def stepped (b : Byte) (f : State → State) : Option State := next? (step (f (loaded [b])))

/-! ### WellFormed: one ill-formed term for each check, and its neighbours that pass -/

theorem test_asm_immediate_range :
    (AsmStmt.core .wtx (some 16)).wellFormed = false ∧ (AsmStmt.core .wtx (some 15)).wellFormed = true := by decide
theorem test_asm_operand_missing : (AsmStmt.core .pc1 none).wellFormed = false := by decide
theorem test_asm_operand_extra :
    (AsmStmt.core .ztr (some 0)).wellFormed = false ∧ (AsmStmt.core .ztr none).wellFormed = true := by decide
theorem test_asm_address_range :
    (AsmStmt.setloc 256).wellFormed = false ∧ (AsmStmt.settpc 256).wellFormed = false ∧
    (AsmStmt.goto 256).wellFormed = false ∧ (AsmStmt.goto 255).wellFormed = true := by decide
theorem test_instr_wellFormed : (Instr.wt1 0xF#4).wellFormed = true ∧ Instr.jmp.wellFormed = true := by decide

/-! ### Decoding: words written out from opcode_table.json's encodings and 95_test_vectors.md's decoder table -/

theorem test_decode_format_o :
    decode 0b00000000#8 = .nop ∧ decode 0b00001111#8 = .nop ∧ decode 0b00010000#8 = .add ∧ decode 0b00101010#8 = .sub ∧
    decode 0b10000101#8 = .ztr ∧ decode 0b10010000#8 = .rtz ∧ decode 0b11001111#8 = .jmp ∧ decode 0b11010000#8 = .rtx ∧
    decode 0b11100011#8 = .rty ∧ decode 0b11111111#8 = .usc := by decide
theorem test_decode_format_oi :
    decode 0b00111010#8 = .wt1 0b1010#4 ∧ decode 0b01001111#8 = .wt2 0b1111#4 ∧ decode 0b01010111#8 = .wtx 0b0111#4 ∧
    decode 0b01100000#8 = .wty 0b0000#4 ∧ decode 0b01111111#8 = .wtz 0b1111#4 ∧ decode 0b10100010#8 = .pc1 0b0010#4 ∧
    decode 0b10110001#8 = .pc2 0b0001#4 := by decide
theorem test_encode_canonical :
    encode .ztr = 0x80#8 ∧ encode (.wtx 7#4) = 0x57#8 ∧ encode .jmp = 0xC0#8 ∧ encode (.pc2 1#4) = 0xB1#8 := by decide
theorem test_decodeTableWord :
    decodeTableWord 8 0x3A = some (.wt1 0xA#4) ∧ decodeTableWord 8 0xC0 = some .jmp := by decide
theorem test_disassemble_drops_ignored_nibble :
    disassemble 0x8F#8 = (.ztr, none) ∧ disassemble 0x57#8 = (.wtx, some 7#4) := by decide
theorem test_pseudo_expansions :
    (AsmStmt.goto 0x12).expand = some [.pc1 2#4, .pc2 1#4, .jmp] ∧
    (AsmStmt.setloc 0xA3).expand = some [.wt1 0xA#4, .wt2 3#4] := by decide
theorem test_withFetchWord_runs_it :
    (next? (step (State.reset.withFetchWord 8 0x5A))).map (fun t => (t.x, t.pc)) = some (0xA#4, 1#8) := by decide

/-! ### One step (95_test_vectors.md part 2, and the examples of the rules) -/

theorem test_nop_wraps_pc :
    (next? (step { loaded [] with pc := 0xFF#8 })).map (fun t => (t.pc, t.chg)) = some (0x00#8, ⟨false, false, false⟩) := by
  decide
theorem test_nop_keeps_flags :
    (stepped 0x07#8 fun s => { s with chg := ⟨true, false, false⟩ }).map (·.chg) = some ⟨true, false, false⟩ := by decide
theorem test_add_source_example :
    (stepped 0x10#8 fun s => { s with x := 9, y := 9 }).map (fun t => (t.z, t.c, t.chg.regs)) = some (2#4, true, true) := by
  decide
theorem test_add_largest_sum :
    (stepped 0x10#8 fun s => { s with x := 15, y := 15, c := true, uc := true }).map (fun t => (t.z, t.c)) =
      some (15#4, true) := by decide
theorem test_add_clears_carry_ignored :
    (stepped 0x10#8 fun s => { s with x := 3, y := 4, c := true }).map (fun t => (t.z, t.c)) = some (7#4, false) := by
  decide
theorem test_sub_borrow :
    (stepped 0x20#8 fun s => { s with x := 3, y := 5 }).map (fun t => (t.z, t.c)) = some (14#4, false) := by decide
theorem test_sub_subtrahend_sixteen :
    (stepped 0x20#8 fun s => { s with x := 7, y := 15, c := true, uc := true }).map (fun t => (t.z, t.c)) =
      some (7#4, false) := by decide
theorem test_usc_toggles :
    (stepped 0xF0#8 fun s => { s with c := true }).map (fun t => (t.uc, t.c, t.chg)) =
      some (true, true, ⟨false, false, false⟩) := by decide
theorem test_wt1_high : (stepped 0x3A#8 fun s => { s with loc := 0x25 }).map (·.loc) = some 0xA5#8 := by decide
theorem test_wt1_sets_flag_unchanged :
    (stepped 0x30#8 id).map (fun t => (t.loc, t.chg)) = some (0x00#8, ⟨true, false, false⟩) := by decide
theorem test_wt2_low : (stepped 0x43#8 fun s => { s with loc := 0xA5 }).map (·.loc) = some 0xA3#8 := by decide
theorem test_wtx : (stepped 0x57#8 fun s => { s with x := 3 }).map (fun t => (t.x, t.y, t.z)) = some (7#4, 0#4, 0#4) := by
  decide
theorem test_wty : (stepped 0x6F#8 id).map (fun t => (t.x, t.y, t.z)) = some (0#4, 15#4, 0#4) := by decide
theorem test_wtz : (stepped 0x70#8 fun s => { s with z := 9 }).map (·.z) = some 0#4 := by decide
theorem test_ztr_high_nibble :
    (stepped 0x80#8 fun s => { s with z := 7, loc := 1, ram := [(0, 0x50#8)] }).map
      (fun t => (t.ram, t.chg)) = some ([(0, 0x70#8)], ⟨false, true, true⟩) := by decide
theorem test_ztr_top_of_ram :
    (stepped 0x80#8 fun s => { s with z := 15, loc := 0xFF, ram := [(127, 0x0A#8)] }).map
      (fun t => (t.ram, t.chg)) = some ([(127, 0xFA#8)], ⟨false, true, false⟩) := by decide
theorem test_ztr_display_boundary :
    (stepped 0x80#8 fun s => { s with z := 9, loc := 3 }).map (fun t => (ramByte t 1, t.chg.disp)) = some (0x90#8, true) ∧
    (stepped 0x80#8 fun s => { s with z := 9, loc := 4 }).map (fun t => (ramByte t 2, t.chg.disp)) = some (0x09#8, false) := by
  decide
theorem test_rtz_high_nibble :
    (stepped 0x90#8 fun s => { s with loc := 1, ram := [(0, 0x57#8)] }).map (fun t => (t.z, t.ram)) =
      some (5#4, [(0, 0x57#8)]) := by decide
theorem test_rtz_unwritten : (stepped 0x90#8 fun s => { s with loc := 0x80, z := 6 }).map (·.z) = some 0#4 := by decide
theorem test_rtx_reads :
    (stepped 0xD0#8 fun s => { s with z := 2, ram := [(0, 0x57#8)] }).map (fun t => (t.x, t.ram)) =
      some (7#4, [(0, 0x57#8)]) := by decide
theorem test_rty_reads :
    (stepped 0xE0#8 fun s => { s with loc := 1, ram := [(0, 0x57#8)] }).map (fun t => (t.y, t.ram)) =
      some (5#4, [(0, 0x57#8)]) := by decide
theorem test_pc1_low : (stepped 0xA2#8 fun s => { s with tpc := 0x3F }).map (·.tpc) = some 0x32#8 := by decide
theorem test_pc2_high : (stepped 0xB1#8 fun s => { s with tpc := 0x32 }).map (·.tpc) = some 0x12#8 := by decide
theorem test_jmp :
    (stepped 0xC0#8 fun s => { s with tpc := 0x12 }).map (fun t => (t.pc, t.tpc, t.chg)) =
      some (0x12#8, 0x11#8, ⟨false, false, false⟩) := by decide
theorem test_jmp_wraps :
    (stepped 0xCF#8 id).map (fun t => (t.pc, t.tpc)) = some (0x00#8, 0xFF#8) := by decide

/-! ### Ports (20_memory.md R63, 40_executor.md R107) -/

theorem test_load_empty : loadProgram [] = .error .emptyProgram := rfl
theorem test_load_drops_last :
    ((loadProgram (List.replicate 256 0xAB#8)).toOption.map fun m => (Memory.read m 254, Memory.read m 255)) =
      some (0xAB#8, 0x00#8) := by decide +kernel
theorem test_clear_then_step :
    (next? (cycle { stepReq := true, clrRegs := true } { loaded [0x57#8] with chg := ⟨true, false, false⟩ })).map (·.chg) =
      some ⟨true, false, false⟩ := by decide
theorem test_clear_regs_only :
    (next? (cycle { stepReq := true, clrRegs := true } { loaded [] with chg := ⟨true, true, true⟩ })).map (·.chg) =
      some ⟨false, true, true⟩ := by decide
theorem test_byte_view : ((outputs { loaded [] with ram := [(0, 0xF3#8)] }).ram.take 2) = [0xF3#8, 0x00#8] := by decide

/-! ### Witnesses: a state and operands that meet the hypotheses of each obligation that has some -/

/-- A state with something in every field. -/
def busy : State where
  x := 3
  y := 15
  z := 9
  loc := 0x03
  pc := 0xFF
  tpc := 0x00
  c := true
  uc := true
  chg := ⟨true, false, true⟩
  ram := [(1, 0x50#8), (127, 0x0A#8)]
  rom := [(0, 0xC0#8), (1, 0xC0#8)]

theorem witness_LowNibbleIgnoredExactlyByFormatO :
    (decode 0x57#8).mnemonic.format = .oi ∧ (decode 0x85#8).mnemonic.format = .o := by decide
theorem witness_EncodeAndDecodeAgree : (Instr.wtx 0xF#4).wellFormed = true := by decide
theorem witness_AssemblyExpandsAsListed :
    (0 : Nat) ≤ 255 ∧ (255 : Nat) ≤ 255 ∧ (255 : Nat) < 256 ∧ (15 : Nat) < 16 ∧ Mnemonic.ztr.format = .o ∧
    Mnemonic.wtx.format = .oi := by decide
theorem witness_StepRunsTheDecodedInstruction :
    decode (romRead busy busy.pc) = .nop ∧ Instr.nop.wellFormed = true := by decide
theorem witness_StepKeepsRangesAndAdvancesPc_not_jmp :
    (∃ t, step busy = .next t) ∧ (romRead busy busy.pc).toNat / 16 ≠ 12 := ⟨⟨_, rfl⟩, by decide⟩
theorem witness_StepKeepsRangesAndAdvancesPc_jmp :
    (∃ t, step { busy with pc := 0 } = .next t) ∧ (romRead { busy with pc := 0 } 0).toNat / 16 = 12 :=
  ⟨⟨_, rfl⟩, by decide⟩
theorem witness_OnlyJmpWritesPcBeforeTheAdvance : Instr.usc ≠ .jmp := by decide
theorem witness_RomMattersOnlyThroughTheFetchedByte :
    SameButRom busy { busy with rom := [(0, 0x57#8)] } ∧ fetch busy = fetch { busy with rom := [(0, 0x57#8)] } :=
  ⟨rfl, by decide⟩
theorem witness_ChangeFlagsStaySetUntilCleared :
    (∃ t, Sys2Proof.core.run 1 busy = .next t) ∧ busy.chg.regs = true ∧ busy.chg.disp = true ∧
    (∃ t, Sys2Proof.core.run 0 { busy with chg := ⟨false, true, false⟩ } = .next t) := ⟨⟨_, rfl⟩, rfl, rfl, ⟨_, rfl⟩⟩
theorem witness_ProgramCannotObserveChangeFlags : SameButChg busy { busy with chg := ⟨false, true, false⟩ } := rfl
theorem witness_LoadProgramFillsRom_short :
    [0xF0#8] ≠ [] ∧ 0 < min [0xF0#8].length 255 ∧ min [0xF0#8].length 255 ≤ 1 := by decide
theorem witness_LoadProgramFillsRom_long :
    List.replicate 300 0xAB#8 ≠ [] ∧ 254 < min (List.replicate 300 0xAB#8).length 255 ∧
    min (List.replicate 300 0xAB#8).length 255 ≤ 255 := by
  refine ⟨by decide +kernel, ?_, ?_⟩ <;> rw [List.length_replicate] <;> decide
theorem witness_CreationLeavesResetValues :
    (∃ s, create [0xF0#8] = .ok s) ∧ ∃ rom, loadProgram [0xF0#8] = .ok rom := ⟨⟨_, rfl⟩, ⟨_, rfl⟩⟩
theorem witness_ResetInputReproducesCreation :
    (∃ inp : Inputs, inp.reset = true ∧ inp.load = none) ∧
    (∃ inp : Inputs, inp.reset = true ∧ inp.load = some [0xF0#8] ∧ ∃ t, create [0xF0#8] = .ok t) ∧
    ∃ inp : Inputs, inp.reset = true ∧ inp.load = some [] :=
  ⟨⟨{ reset := true, stepReq := true }, rfl, rfl⟩, ⟨{ reset := true, load := some [0xF0#8] }, rfl, rfl, _, rfl⟩,
    ⟨{ reset := true, load := some [] }, rfl, rfl⟩⟩
theorem witness_LoadOutsideResetIsRefused :
    ∃ inp : Inputs, inp.reset = false ∧ inp.load = some [0xF0#8] := ⟨{ load := some [0xF0#8] }, rfl, rfl⟩
theorem witness_OutputsShowTheState : (0 : Nat) < 128 ∧ (127 : Nat) < 128 := by decide
theorem witness_XAndYReadersAndWriters :
    (Instr.wtx 1#4).mnemonic = .wtx ∧ Instr.rty.mnemonic = .rty ∧ Instr.sub.mnemonic = .sub ∧
    Instr.ztr.mnemonic ∉ ([.wtx, .rtx, .add, .sub] : List Mnemonic) ∧
    Instr.ztr.mnemonic ∉ ([.wty, .rty, .add, .sub] : List Mnemonic) := by decide
theorem witness_ZReadersAndWriters :
    Instr.rtz.mnemonic ∈ ([.add, .sub, .wtz, .rtz] : List Mnemonic) ∧ Instr.ztr = .ztr ∧
    Instr.jmp.mnemonic ∉ ([.add, .sub, .wtz, .rtz, .ztr] : List Mnemonic) := by decide
theorem witness_CarryReadersAndWriters :
    Instr.add = .add ∧ { busy with uc := false }.uc = false ∧ Instr.usc ≠ .add ∧ Instr.usc ≠ .sub := by decide
theorem witness_CarryEnableReadersAndWriters :
    Instr.usc = .usc ∧ Instr.sub = .sub ∧ busy.c = true ∧ { busy with c := false }.c = false ∧
    Instr.jmp ≠ .usc ∧ Instr.jmp ≠ .add ∧ Instr.jmp ≠ .sub := by decide
theorem witness_LocReadersAndWriters :
    (Instr.pc1 1#4).mnemonic ∉ ([.wt1, .wt2, .ztr, .rtz, .rtx, .rty] : List Mnemonic) := by decide
theorem witness_TpcReadersAndWriters : (Instr.wt1 1#4).mnemonic ∉ ([.pc1, .pc2, .jmp] : List Mnemonic) := by decide
theorem witness_InstructionsWriteOnlyTheirColumns_frame :
    Column.tpc ∉ writes .ztr ∧ Instr.add ≠ .ztr ∧ (0x02#8 : Byte) ≠ ramAddress busy ∧ 0 ≠ nibbleByte (ramAddress busy) := by
  decide
theorem witness_InstructionsWriteOnlyTheirColumns_reads :
    ∀ k ∈ reads (.pc1 1#4), SameColumn k busy { busy with x := 0 } := by
  simp [reads, SameColumn]
theorem witness_NibblesAreHalvesOfRamBytes : (0 : Nat) < 128 ∧ (127 : Nat) < 128 := by decide
theorem witness_MemReadFollowsItsFormula : busy.ram = { busy with x := 0 }.ram := rfl
theorem witness_MemWriteChangesOneNibble :
    (0x00#8 : Byte).toNat % 2 = 0 ∧ (0xFF#8 : Byte).toNat % 2 ≠ 0 ∧ 126 ≠ (0xFF#8 : Byte).toNat / 2 ∧
    (0xFE#8 : Byte) ≠ 0xFF#8 := by decide
theorem witness_RomNeverChangesAfterTheLoad :
    (∃ t, step busy = .next t) ∧ ∃ (inp : Inputs) (t : State), inp.reset = false ∧ cycle inp busy = .next t :=
  ⟨⟨_, rfl⟩, ⟨{ stepReq := true }, _, rfl, rfl⟩⟩
theorem witness_OnlyZtrChangesRam :
    (∃ s, create [0xF0#8] = .ok s) ∧ Instr.rtx ≠ .ztr ∧
    (∃ (inp : Inputs) (t : State), inp.reset = false ∧ decode (fetch busy) ≠ .ztr ∧ inp.stepReq = true ∧
      cycle inp busy = .next t) ∧
    ∃ (inp : Inputs) (t : State), inp.reset = false ∧ inp.stepReq = false ∧ cycle inp busy = .next t :=
  ⟨⟨_, rfl⟩, by decide, ⟨{ stepReq := true }, _, rfl, by decide, rfl, rfl⟩, ⟨{ clrMem := true }, _, rfl, rfl, rfl⟩⟩
theorem witness_MemoryFormHoldsAtReset : ∃ s, create [0x00#8] = .ok s := ⟨_, rfl⟩
theorem witness_StepKeepsMemoryForm : MemInv busy ∧ ∃ t, step busy = .next t := ⟨by decide, ⟨_, rfl⟩⟩
theorem witness_CyclesKeepALoadedMachine :
    MemInv busy ∧ RomLoaded busy ∧
    (∃ t, runCycles [{ stepReq := true }, { reset := true, load := some [0xF0#8] }, { stepReq := true }] busy = .next t) ∧
    ∃ s t, create [0xF0#8] = .ok s ∧ runCycles [{ stepReq := true }] s = .next t :=
  ⟨by decide, by decide, ⟨_, rfl⟩, ⟨_, _, rfl, rfl⟩⟩
theorem witness_AddGivesSumAndCarry :
    ∃ sum : Nat, sum = busy.x.toNat + busy.y.toNat + (if busy.uc && busy.c then 1 else 0) ∧ 16 ≤ sum := ⟨_, rfl, by decide⟩
theorem witness_SubGivesDifferenceAndNoBorrow :
    ∃ sb : Nat, sb = busy.y.toNat + (if busy.uc && busy.c then 1 else 0) ∧ ¬ sb ≤ busy.x.toNat := ⟨_, rfl, by decide⟩
theorem witness_ZtrStoresZ : (0x02#8 : Byte) ≠ busy.loc := by decide
theorem witness_JmpGoesToTpcAndLeavesItDecremented :
    ∃ d : Byte, d = BitVec.ofNat 8 ((busy.tpc.toNat + 255) % 256) ∧ d = 0xFF#8 := ⟨_, rfl, by decide⟩
theorem witness_ArithmeticIsModuloSixteen :
    (∃ cin : Nat, cin = (if busy.uc && busy.c then 1 else 0) ∧ cin = 1) ∧
    ∃ cin : Nat, cin = (if State.reset.uc && State.reset.c then 1 else 0) ∧ cin = 0 := ⟨⟨_, rfl, by decide⟩, ⟨_, rfl, by decide⟩⟩
theorem witness_ChainedAddIsMultiNibbleAddition : busy.uc = true ∧ State.reset.uc = false := ⟨rfl, rfl⟩
theorem witness_ChainedSubTakesOneMoreWithoutBorrow : busy.uc = true := rfl
theorem witness_NextInstructionSeesEveryEffect :
    busy.uc = true ∧ decode (fetch { busy with pc := 0 }) = .jmp ∧ (Instr.wt1 0xF#4 = .wt1 0xF#4) ∧ Instr.usc = .usc :=
  ⟨rfl, by decide, rfl, rfl⟩
/-- The next instruction after a JMP is a JMP. -/
theorem witness_JmpDecrementPersists_consecutive :
    ∃ s t, decode (fetch s) = .jmp ∧ step s = .next t ∧ Sys2Proof.core.run 0 t = .next t ∧ decode (fetch t) = .jmp :=
  ⟨{ busy with pc := 0 }, _, by decide, rfl, rfl, by decide⟩

/-- A NOP at address 255 stands between the JMPs at 1 and 0. -/
theorem witness_JmpDecrementPersists_one_between :
    ∃ s t v, decode (fetch s) = .jmp ∧ step s = .next t ∧
      (∀ (k : Nat) (w : State), k < 1 → Sys2Proof.core.run k t = .next w →
        (decode (fetch w)).mnemonic ∉ ([.pc1, .pc2, .jmp] : List Mnemonic)) ∧
      Sys2Proof.core.run 1 t = .next v ∧ decode (fetch v) = .jmp := by
  refine ⟨{ busy with pc := 1, tpc := 0xFF }, _, _, by decide, rfl, ?_, rfl, by decide⟩
  intro k w hk hw
  obtain rfl : k = 0 := by omega
  cases hw
  decide

end Sys2Proof.Tests
end

section
/-! What a step, a port cycle and a run of port cycles can do to the two memories; and O37 from that. -/

namespace Sys2Proof.Machine

/-- No instruction writes ROM (20_memory.md R64). -/
theorem exec_rom {i : Instr} {s t : State} (h : exec i s = .next t) : t.rom = s.rom := by
  cases i <;> cases h <;> rfl

/-- ZTR stores one nibble, at LOC; every other instruction leaves RAM as it is (20_memory.md R65). -/
theorem exec_ram {i : Instr} {s t : State} (h : exec i s = .next t) :
    t.ram = if i = .ztr then (memWrite s s.loc s.z).ram else s.ram := by
  cases i <;> cases h <;> rfl

theorem step_rom {s t : State} (h : step s = .next t) : t.rom = s.rom := by
  obtain ⟨u, hu, rfl⟩ := step_eq_next.mp h
  rw [endStep_rom, exec_rom hu]

theorem step_ram {s t : State} (h : step s = .next t) :
    t.ram = if decode (fetch s) = .ztr then (memWrite s s.loc s.z).ram else s.ram := by
  obtain ⟨u, hu, rfl⟩ := step_eq_next.mp h
  rw [endStep_ram, exec_ram hu]

/-- A reset cycle answers the reset values over the ROM image already there, or over the one a load makes. -/
theorem resetCycle_eq_next {load : Option (List Byte)} {s t : State} :
    resetCycle load s = .next t ↔ ∃ rom, t = State.initial rom ∧
      (load = none ∧ rom = s.rom ∨ ∃ bytes, load = some bytes ∧ loadProgram bytes = .ok rom) := by
  cases load with
  | none => simp [resetCycle, eq_comm]
  | some bytes => cases hl : loadProgram bytes <;> simp [resetCycle, hl, eq_comm]

/-- The three ways a port cycle answers a next state: a reset, a step after the clears, and the clears alone. -/
theorem cycle_cases {inp : Inputs} {s t : State} (h : cycle inp s = .next t) :
    (inp.reset = true ∧ resetCycle inp.load s = .next t) ∨
    (inp.reset = false ∧ inp.load = none ∧ inp.stepReq = true ∧ step (applyClears inp s) = .next t) ∨
    (inp.reset = false ∧ inp.load = none ∧ inp.stepReq = false ∧ t = applyClears inp s) := by
  cases hreset : inp.reset with
  | true => exact .inl ⟨rfl, cycle_reset s hreset ▸ h⟩
  | false =>
    cases hload : inp.load with
    | some bytes => rw [cycle_load s hreset hload] at h; cases h
    | none =>
      cases hreq : inp.stepReq with
      | true => exact .inr (.inl ⟨rfl, rfl, rfl, cycle_step s hreset hload hreq ▸ h⟩)
      | false =>
        rw [cycle_idle s hreset hload hreq] at h
        cases h
        exact .inr (.inr ⟨rfl, rfl, rfl, rfl⟩)

/-- A created machine holds the reset values over the image that the load makes. -/
theorem create_eq_ok {bytes : List Byte} {s : State} :
    create bytes = .ok s ↔ ∃ rom, loadProgram bytes = .ok rom ∧ s = State.initial rom := by
  cases hl : loadProgram bytes <;> simp [create, hl, eq_comm]

/-- A load copies at most 255 bytes, so it never fills ROM byte 255 (20_memory.md R63). -/
theorem read_last_loadProgram {bytes : List Byte} {rom : Memory} (h : loadProgram bytes = .ok rom) :
    Memory.read rom 255 = 0x00#8 := by
  cases bytes with
  | nil => cases h
  | cons b bs =>
    cases h
    rw [Memory.read_ofBytes, if_pos (Nat.zero_le _)]
    exact List.getD_eq_default _ _ (List.length_take_le _ _)

end Sys2Proof.Machine

namespace Sys2Proof

open Sys2Proof.Machine

theorem runCycles_cons_eq_next {inp : Inputs} {inps : List Inputs} {s t : State} :
    runCycles (inp :: inps) s = .next t ↔ ∃ u, cycle inp s = .next u ∧ runCycles inps u = .next t := by
  cases hc : cycle inp s <;> simp [runCycles, hc]

/-- What every cycle keeps, every sequence of cycles keeps. -/
theorem runCycles_keeps {P : State → Prop}
    (hcycle : ∀ {inp : Inputs} {s t : State}, P s → cycle inp s = .next t → P t) {inps : List Inputs} :
    ∀ {s t : State}, P s → runCycles inps s = .next t → P t := by
  induction inps with
  | nil => intro s t hs h; cases h; exact hs
  | cons inp inps ih =>
    intro s t hs h
    obtain ⟨u, hu, ht⟩ := runCycles_cons_eq_next.mp h
    exact ih (hcycle hs hu) ht

/-- The one store of the machine is within the RAM, and no step writes ROM. -/
theorem memInv_step {s t : State} (hs : MemInv s) (h : step s = .next t) : MemInv t := by
  obtain ⟨hram, hrom⟩ := hs
  refine ⟨?_, step_rom h ▸ hrom⟩
  rw [step_ram h]
  split
  · exact wf_memWrite s s.loc s.z hram
  · exact hram

/-- The machines of O37: both memories in canonical form, and ROM byte 255 as a load leaves it. -/
def LoadedMachine (s : State) : Prop := MemInv s ∧ RomLoaded s

theorem loadedMachine_initial {rom : Memory} (hwf : Memory.wf Config.romBytes rom = true)
    (hlast : Memory.read rom 255 = 0x00#8) : LoadedMachine (State.initial rom) :=
  ⟨⟨Memory.wf_nil _, hwf⟩, hlast⟩

theorem loadedMachine_initial_of_load {bytes : List Byte} {rom : Memory} (h : loadProgram bytes = .ok rom) :
    LoadedMachine (State.initial rom) :=
  loadedMachine_initial (wf_loadProgram h) (read_last_loadProgram h)

theorem loadedMachine_create {bytes : List Byte} {s : State} (h : create bytes = .ok s) : LoadedMachine s := by
  obtain ⟨rom, hload, rfl⟩ := create_eq_ok.mp h
  exact loadedMachine_initial_of_load hload

/-- The clears reach CHG alone, so neither memory. -/
theorem loadedMachine_applyClears {s : State} (inp : Inputs) (hs : LoadedMachine s) :
    LoadedMachine (applyClears inp s) := hs

theorem loadedMachine_step {s t : State} (hs : LoadedMachine s) (h : step s = .next t) : LoadedMachine t := by
  obtain ⟨hmem, hlast⟩ := hs
  refine ⟨memInv_step hmem h, ?_⟩
  rw [RomLoaded, romRead, step_rom h]
  exact hlast

theorem loadedMachine_resetCycle {load : Option (List Byte)} {s t : State} (hs : LoadedMachine s)
    (h : resetCycle load s = .next t) : LoadedMachine t := by
  obtain ⟨⟨-, hwf⟩, hlast⟩ := hs
  obtain ⟨rom, rfl, ⟨-, rfl⟩ | ⟨bytes, -, hload⟩⟩ := resetCycle_eq_next.mp h
  · exact loadedMachine_initial hwf hlast
  · exact loadedMachine_initial_of_load hload

theorem loadedMachine_cycle {inp : Inputs} {s t : State} (hs : LoadedMachine s) (h : cycle inp s = .next t) :
    LoadedMachine t := by
  obtain ⟨-, hreset⟩ | ⟨-, -, -, hstep⟩ | ⟨-, -, -, rfl⟩ := cycle_cases h
  · exact loadedMachine_resetCycle hs hreset
  · exact loadedMachine_step (loadedMachine_applyClears inp hs) hstep
  · exact loadedMachine_applyClears inp hs

/-- Settles O37, by induction on the cycles: being a loaded machine holds at creation, and every reset, load, step and
clear keeps it. -/
theorem cyclesKeepALoadedMachine : Obligations.CyclesKeepALoadedMachine :=
  ⟨fun _ _ _ hmem hlast h => runCycles_keeps loadedMachine_cycle ⟨hmem, hlast⟩ h,
    fun _ _ _ _ hcreate h => runCycles_keeps loadedMachine_cycle (loadedMachine_create hcreate) h⟩

end Sys2Proof
end

section
/-! Runs of steps: what every step keeps, every run keeps. The change flags over a run; and O15 and O13 from that. -/

namespace Sys2Proof.Machine

/-- Every instruction answers a next state, from every state (40_executor.md R109). -/
theorem exec_completes (i : Instr) (s : State) : ∃ t, exec i s = .next t := by
  cases i <;> exact ⟨_, rfl⟩

theorem step_completes (s : State) : ∃ t, step s = .next t := by
  obtain ⟨u, hu⟩ := exec_completes (decode (fetch s)) s
  exact ⟨endStep u, step_eq_next.mpr ⟨u, hu, rfl⟩⟩

theorem run_succ_eq_next {n : Nat} {s t : State} :
    core.run (n + 1) s = .next t ↔ ∃ u, step s = .next u ∧ core.run n u = .next t := by
  obtain ⟨u, hu⟩ := step_completes s
  have hrun : core.run (n + 1) s = core.run n u := by simp [Host.Core.run, show core.step s = .next u from hu]
  rw [hrun, hu]
  simp

/-- What every step keeps, every run keeps. -/
theorem run_keeps {P : State → Prop} (hstep : ∀ {s t : State}, P s → step s = .next t → P t) {n : Nat} :
    ∀ {s t : State}, P s → core.run n s = .next t → P t := by
  induction n with
  | zero => intro s t hs h; cases h; exact hs
  | succ n ih =>
    intro s t hs h
    obtain ⟨u, hu, ht⟩ := run_succ_eq_next.mp h
    exact ih (hstep hs hu) ht

/-- Two states whose next states stay related, step by step, run to related states over any number of steps. -/
theorem run_related {R : State → State → Prop}
    (hstep : ∀ {s t : State}, R s t → ∃ u v, step s = .next u ∧ step t = .next v ∧ R u v) (n : Nat) :
    ∀ {s t : State}, R s t → ∃ u v, core.run n s = .next u ∧ core.run n t = .next v ∧ R u v := by
  induction n with
  | zero => intro s t h; exact ⟨s, t, rfl, rfl, h⟩
  | succ n ih =>
    intro s t h
    obtain ⟨s', t', hs, ht, h'⟩ := hstep h
    obtain ⟨u, v, hu, hv, huv⟩ := ih h'
    exact ⟨u, v, run_succ_eq_next.mpr ⟨s', hs, hu⟩, run_succ_eq_next.mpr ⟨t', ht, hv⟩, huv⟩

/-- No instruction reads CHG: over other change flags its next state differs in them alone (10_state.md R35). -/
theorem exec_setChg {i : Instr} {s t : State} (f : ChangeFlags) (h : exec i s = .next t) :
    ∃ g, exec i (s.setChg f) = .next (t.setChg g) := by
  cases i <;> cases h <;> exact ⟨_, rfl⟩

/-- The row of an instruction in the table of 40_executor.md R106, at the address in LOC. -/
def changeSets (i : Instr) (loc : Byte) : ChangeFlags :=
  match i with
  | .nop | .jmp | .usc => ChangeFlags.clear
  | .ztr => storeSets loc
  | .add | .sub | .wt1 _ | .wt2 _ | .wtx _ | .wty _ | .wtz _ | .rtz | .pc1 _ | .pc2 _ | .rtx | .rty => regsOnly

@[simp] theorem ChangeFlags.union_clear (f : ChangeFlags) : f.union ChangeFlags.clear = f := by
  simp [ChangeFlags.union]

/-- CHG after an instruction is CHG before it united with the instruction's row of the table. -/
theorem exec_chg {i : Instr} {s t : State} (h : exec i s = .next t) : t.chg = s.chg.union (changeSets i s.loc) := by
  cases i
  case nop | jmp | usc => cases h; exact (ChangeFlags.union_clear s.chg).symm
  all_goals cases h; rfl

theorem step_chg {s t : State} (h : step s = .next t) :
    t.chg = s.chg.union (changeSets (decode (fetch s)) s.loc) := by
  obtain ⟨u, hu, rfl⟩ := step_eq_next.mp h
  rw [endStep_chg, exec_chg hu]

end Sys2Proof.Machine

namespace Sys2Proof

open Sys2Proof.Machine

/-- The step fetches and executes the same, since neither reads CHG, and the end of a step changes PC alone. -/
theorem sameButChg_step {s t : State} (h : SameButChg s t) :
    ∃ u v, step s = .next u ∧ step t = .next v ∧ SameButChg u v := by
  obtain ⟨u, hu⟩ := exec_completes (decode (fetch s)) s
  obtain ⟨g, hg⟩ := exec_setChg t.chg hu
  rw [h] at hg
  have hfetch : fetch t = fetch s := h ▸ rfl
  exact ⟨endStep u, endStep (u.setChg g), step_eq_next.mpr ⟨u, hu, rfl⟩,
    step_eq_next.mpr ⟨u.setChg g, hfetch ▸ hg, rfl⟩, rfl⟩

/-- Settles O15, by induction on the steps: being equal but for CHG is kept by every pair of steps. -/
theorem programCannotObserveChangeFlags : Obligations.ProgramCannotObserveChangeFlags :=
  fun n _ _ h => run_related sameButChg_step n h

/-- Each change flag that is set in `f` is set in `g`. -/
def FlagsStaySet (f g : ChangeFlags) : Prop :=
  (f.regs = true → g.regs = true) ∧ (f.mem = true → g.mem = true) ∧ (f.disp = true → g.disp = true)

theorem FlagsStaySet.refl (f : ChangeFlags) : FlagsStaySet f f := ⟨id, id, id⟩

theorem FlagsStaySet.union {f g : ChangeFlags} (h : FlagsStaySet f g) (sets : ChangeFlags) :
    FlagsStaySet f (g.union sets) := by
  obtain ⟨hregs, hmem, hdisp⟩ := h
  exact ⟨fun hf => by simp [hregs hf], fun hf => by simp [hmem hf], fun hf => by simp [hdisp hf]⟩

theorem FlagsStaySet.step {f : ChangeFlags} {s t : State} (hs : FlagsStaySet f s.chg)
    (h : Machine.step s = .next t) : FlagsStaySet f t.chg :=
  step_chg h ▸ hs.union _

/-- Settles O13: a step only unites CHG with the flags it sets, so by induction on the steps a run keeps what is set; and
a cycle without a request is its clears alone. -/
theorem changeFlagsStaySetUntilCleared : Obligations.ChangeFlagsStaySetUntilCleared :=
  ⟨fun _ s _ h => run_keeps FlagsStaySet.step (FlagsStaySet.refl s.chg) h, fun _ _ _ s => cycle_idle s rfl rfl rfl⟩

end Sys2Proof
end

section
/-! What creation and reset leave (10_state.md R20, 70_reset_and_hazards.md R260); O17. -/

namespace Sys2Proof.Machine

/-- The RAM of the reset state reads 0 everywhere (20_memory.md R65). -/
theorem memRead_initial (rom : Memory) (a : Byte) : memRead (State.initial rom) a = 0 := by
  simp [memRead, getNibble, Memory.unlisted]

end Sys2Proof.Machine

namespace Sys2Proof

open Sys2Proof.Machine

/-- Settles O17: State.reset and every created machine are the reset values over some image. -/
theorem creationLeavesResetValues : Obligations.CreationLeavesResetValues := by
  refine ⟨fun s hs => ?_, fun _ => rfl, fun _ rom h => ⟨State.initial rom, create_eq_ok.mpr ⟨rom, h, rfl⟩, rfl⟩⟩
  obtain ⟨rom, rfl⟩ : ∃ rom, s = State.initial rom := by
    obtain rfl | ⟨bytes, h⟩ := hs
    · exact ⟨[], rfl⟩
    · obtain ⟨rom, -, rfl⟩ := create_eq_ok.mp h
      exact ⟨rom, rfl⟩
  exact ⟨rfl, rfl, rfl, rfl, rfl, rfl, rfl, rfl, memRead_initial rom, rfl, rfl, rfl⟩

end Sys2Proof
end

section
/-! The nibble memory and the ALU: a nibble read after each state operation, and what ADD and SUB do to Z and C. -/

namespace Sys2Proof.Machine

section
variable (s : State) (a : Byte)
@[simp] theorem memRead_setX (v : Nibble) : memRead (s.setX v) a = memRead s a := rfl
@[simp] theorem memRead_setY (v : Nibble) : memRead (s.setY v) a = memRead s a := rfl
@[simp] theorem memRead_setZ (v : Nibble) : memRead (s.setZ v) a = memRead s a := rfl
@[simp] theorem memRead_setLoc (v : Byte) : memRead (s.setLoc v) a = memRead s a := rfl
@[simp] theorem memRead_setPc (v : Byte) : memRead (s.setPc v) a = memRead s a := rfl
@[simp] theorem memRead_setTpc (v : Byte) : memRead (s.setTpc v) a = memRead s a := rfl
@[simp] theorem memRead_setUc (v : Bool) : memRead (s.setUc v) a = memRead s a := rfl
@[simp] theorem memRead_aluStep (op : AluOp) : memRead (aluStep op s) a = memRead s a := rfl
@[simp] theorem memRead_raise (sets : ChangeFlags) : memRead (raise sets s) a = memRead s a := rfl
end

@[simp] theorem memRead_memWrite_same (s : State) (a : Byte) (v : Nibble) : memRead (memWrite s a v) a = v := by
  change getNibble (ramByte (memWrite s a v) (nibbleByte a)) (nibbleShift a) = v
  rw [ramByte_memWrite, if_pos rfl, getNibble_putNibble_same _ _ (nibbleShift_cases a)]

/-- A nibble at another address is in another byte, or is the sibling in the same byte (20_memory.md R54). -/
theorem memRead_memWrite_other (s : State) {a b : Byte} (v : Nibble) (h : b ≠ a) :
    memRead (memWrite s a v) b = memRead s b := by
  change getNibble (ramByte (memWrite s a v) (nibbleByte b)) (nibbleShift b) = memRead s b
  rw [ramByte_memWrite]
  split
  · next hbyte =>
    have hshift : nibbleShift a ≠ nibbleShift b := fun hs => h (nibble_address_inj hbyte hs).symm
    exact getNibble_putNibble_sibling _ v (nibbleShift_cases a) (nibbleShift_cases b) hshift
  · rfl

/-- All that a nibble write does to a later nibble read. -/
theorem memRead_memWrite (s : State) (a b : Byte) (v : Nibble) :
    memRead (memWrite s a v) b = if b = a then v else memRead s b := by
  split
  · next h => rw [h, memRead_memWrite_same]
  · next h => exact memRead_memWrite_other s v h

theorem aluStep_z (op : AluOp) (s : State) :
    (aluStep op s).z = maskNibble (alu op s.x s.y (carryTerm s)).raw := rfl

theorem aluStep_c (op : AluOp) (s : State) : (aluStep op s).c = (alu op s.x s.y (carryTerm s)).carry := rfl

/-- The masked sum is the sum in 4 bits (42_arithmetic.md R142). -/
theorem maskNibble_alu_add (a b : Nibble) (cin : Bool) :
    maskNibble (alu .add a b cin).raw = a + (b + BitVec.ofNat 4 cin.toNat) := by
  apply BitVec.eq_of_toNat_eq
  simp only [maskNibble, alu, aluSum, Nat.reduceLeDiff, BitVec.setWidth_ofNat_of_le, BitVec.toNat_ofNat,
    Nat.reducePow, BitVec.toNat_add, Nat.add_mod_mod]
  omega

/-- The masked difference is the difference in 4 bits (42_arithmetic.md R143). -/
theorem maskNibble_alu_sub (a b : Nibble) (cin : Bool) :
    maskNibble (alu .sub a b cin).raw = a - (b + BitVec.ofNat 4 cin.toNat) := by
  apply BitVec.eq_of_toNat_eq
  simp only [maskNibble, alu, aluSubtrahend, BitVec.toNat_setWidth, BitVec.toNat_sub, Nat.reducePow,
    BitVec.toNat_ofNat, Nat.add_mod_mod, Nat.reduceDvd, Nat.mod_mod_of_dvd, BitVec.toNat_add]
  omega

theorem ofNat_carry_inj {cin cin' : Bool} :
    BitVec.ofNat 4 cin'.toNat = BitVec.ofNat 4 cin.toNat ↔ cin' = cin := by
  revert cin cin'; decide

section
variable (op : AluOp) (a b : Nibble) (cin : Bool)

/-- Another first operand gives another masked result. -/
theorem maskNibble_alu_inj_left (a' : Nibble) :
    maskNibble (alu op a' b cin).raw = maskNibble (alu op a b cin).raw ↔ a' = a := by
  cases op
  case add => rw [maskNibble_alu_add, maskNibble_alu_add, add_left_inj]
  case sub => rw [maskNibble_alu_sub, maskNibble_alu_sub, sub_left_inj]

/-- Another second operand gives another masked result. -/
theorem maskNibble_alu_inj_right (b' : Nibble) :
    maskNibble (alu op a b' cin).raw = maskNibble (alu op a b cin).raw ↔ b' = b := by
  cases op
  case add => rw [maskNibble_alu_add, maskNibble_alu_add, add_right_inj, add_left_inj]
  case sub => rw [maskNibble_alu_sub, maskNibble_alu_sub, sub_right_inj, add_left_inj]

/-- Another carry term gives another masked result. -/
theorem maskNibble_alu_inj_carry (cin' : Bool) :
    maskNibble (alu op a b cin').raw = maskNibble (alu op a b cin).raw ↔ cin' = cin := by
  cases op
  case add => rw [maskNibble_alu_add, maskNibble_alu_add, add_right_inj, add_right_inj, ofNat_carry_inj]
  case sub => rw [maskNibble_alu_sub, maskNibble_alu_sub, sub_right_inj, add_right_inj, ofNat_carry_inj]
end

/-- Where C does not reach the carry term, the ALU step overwrites C whatever it was. -/
theorem aluStep_setC (op : AluOp) {s : State} {b : Bool} (h : carryTerm (s.setC b) = carryTerm s) :
    aluStep op (s.setC b) = aluStep op s := by
  simp only [aluStep, h]; rfl

/-- Where UC does not reach the carry term, the ALU step carries UC along. -/
theorem aluStep_setUc (op : AluOp) {s : State} {b : Bool} (h : carryTerm (s.setUc b) = carryTerm s) :
    aluStep op (s.setUc b) = (aluStep op s).setUc b := by
  simp only [aluStep, h]; rfl

/-- ADD and SUB are the two uses of the ALU (42_arithmetic.md R140). -/
theorem exec_eq_aluStep {i : Instr} (h : i.mnemonic = .add ∨ i.mnemonic = .sub) :
    ∃ op, ∀ s, exec i s = .next (raise regsOnly (aluStep op s)) := by
  cases i <;> simp [Instr.mnemonic] at h
  case add => exact ⟨.add, exec_add⟩
  case sub => exact ⟨.sub, exec_sub⟩

/-- Every instruction but JMP leaves PC to the end of the step, and JMP takes it from TPC (40_executor.md R105). -/
theorem exec_pc {i : Instr} {s t : State} (h : exec i s = .next t) :
    t.pc = if i = .jmp then s.tpc - 0x01#8 else s.pc := by
  cases i <;> cases h <;> rfl

end Sys2Proof.Machine
end

section
/-! Which instructions read and write each register and flag (10_state.md R21 to R33);
O21 to O26. -/

namespace Sys2Proof

open Sys2Proof.Machine

/-- An instruction lets an update of the state through: it neither reads nor writes what the update changes. -/
def PassesThrough (i : Instr) (update : State → State) : Prop :=
  ∀ s, ∃ t, exec i s = .next t ∧ exec i (update s) = .next (update t)

section
variable {i : Instr}

theorem passesThrough_setX (h : i.mnemonic ∉ ([.wtx, .rtx, .add, .sub] : List Mnemonic)) (v : Nibble) :
    PassesThrough i (·.setX v) := by
  cases i
  case wtx | rtx | add | sub => simp [Instr.mnemonic] at h
  all_goals exact fun _ => ⟨_, rfl, rfl⟩

theorem passesThrough_setY (h : i.mnemonic ∉ ([.wty, .rty, .add, .sub] : List Mnemonic)) (v : Nibble) :
    PassesThrough i (·.setY v) := by
  cases i
  case wty | rty | add | sub => simp [Instr.mnemonic] at h
  all_goals exact fun _ => ⟨_, rfl, rfl⟩

theorem passesThrough_setZ (h : i.mnemonic ∉ ([.add, .sub, .wtz, .rtz, .ztr] : List Mnemonic)) (v : Nibble) :
    PassesThrough i (·.setZ v) := by
  cases i
  case add | sub | wtz | rtz | ztr => simp [Instr.mnemonic] at h
  all_goals exact fun _ => ⟨_, rfl, rfl⟩

theorem passesThrough_setC (hadd : i ≠ .add) (hsub : i ≠ .sub) (b : Bool) : PassesThrough i (·.setC b) := by
  cases i
  case add => exact absurd rfl hadd
  case sub => exact absurd rfl hsub
  all_goals exact fun _ => ⟨_, rfl, rfl⟩

theorem passesThrough_setUc (husc : i ≠ .usc) (hadd : i ≠ .add) (hsub : i ≠ .sub) (b : Bool) :
    PassesThrough i (·.setUc b) := by
  cases i
  case usc => exact absurd rfl husc
  case add => exact absurd rfl hadd
  case sub => exact absurd rfl hsub
  all_goals exact fun _ => ⟨_, rfl, rfl⟩

theorem passesThrough_setLoc (h : i.mnemonic ∉ ([.wt1, .wt2, .ztr, .rtz, .rtx, .rty] : List Mnemonic)) (v : Byte) :
    PassesThrough i (·.setLoc v) := by
  cases i
  case wt1 | wt2 | ztr | rtz | rtx | rty => simp [Instr.mnemonic] at h
  all_goals exact fun _ => ⟨_, rfl, rfl⟩

theorem passesThrough_setTpc (h : i.mnemonic ∉ ([.pc1, .pc2, .jmp] : List Mnemonic)) (v : Byte) :
    PassesThrough i (·.setTpc v) := by
  cases i
  case pc1 | pc2 | jmp => simp [Instr.mnemonic] at h
  all_goals exact fun _ => ⟨_, rfl, rfl⟩

theorem exec_setX_of_overwrites (h : i.mnemonic = .wtx ∨ i.mnemonic = .rtx) (s : State) (v : Nibble) :
    exec i (s.setX v) = exec i s := by
  cases i <;> simp [Instr.mnemonic] at h <;> rfl

theorem exec_setY_of_overwrites (h : i.mnemonic = .wty ∨ i.mnemonic = .rty) (s : State) (v : Nibble) :
    exec i (s.setY v) = exec i s := by
  cases i <;> simp [Instr.mnemonic] at h <;> rfl

theorem exec_setZ_of_overwrites (h : i.mnemonic ∈ ([.add, .sub, .wtz, .rtz] : List Mnemonic)) (s : State)
    (v : Nibble) : exec i (s.setZ v) = exec i s := by
  cases i <;> simp [Instr.mnemonic] at h <;> rfl

end

/-- Settles O21: ADD and SUB keep X and Y and are injective in each; WTX and RTX, WTY and RTY overwrite theirs; the rest
let both through. -/
theorem xAndYReadersAndWriters : Obligations.XAndYReadersAndWriters := by
  intro i s v
  refine ⟨Nat.le_of_lt_succ s.x.isLt, Nat.le_of_lt_succ s.y.isLt, fun h => exec_setX_of_overwrites h s v,
    fun h => exec_setY_of_overwrites h s v, fun h => ?_, fun h => passesThrough_setX h v s,
    fun h => passesThrough_setY h v s⟩
  obtain ⟨op, hop⟩ := exec_eq_aluStep h
  exact ⟨_, _, _, hop s, hop _, hop _, rfl, rfl, maskNibble_alu_inj_left op _ _ _ v,
    maskNibble_alu_inj_right op _ _ _ v⟩

/-- Settles O22: the four that write Z overwrite it, ZTR stores it, and the rest let it through. -/
theorem zReadersAndWriters : Obligations.ZReadersAndWriters := by
  intro i s v
  refine ⟨Nat.le_of_lt_succ s.z.isLt, fun h => exec_setZ_of_overwrites h s v, ?_, fun h => passesThrough_setZ h v s⟩
  rintro rfl
  exact ⟨_, exec_ztr s, rfl, by simp⟩

theorem carryTerm_toNat (s : State) : (carryTerm s).toNat = if s.uc && s.c then 1 else 0 :=
  Bool.cond_eq_ite _ _ _

/-- Settles O23: C is the carry-out of the ALU, which reads C through the carry term alone; and PC depends on TPC at
most. -/
theorem carryReadersAndWriters : Obligations.CarryReadersAndWriters := by
  refine ⟨fun s => ⟨_, exec_add s, ?_⟩, fun s => ⟨_, exec_sub s, ?_⟩, fun i s b => ⟨fun h huc => ?_, fun hadd hsub =>
    passesThrough_setC hadd hsub b s, ?_⟩⟩
  · simp [aluStep_c, alu, aluSum, carryTerm_toNat]
  · simp [aluStep_c, alu, aluSubtrahend, carryTerm_toNat]
  · obtain ⟨op, hop⟩ := exec_eq_aluStep (h.imp (congrArg _) (congrArg _))
    rw [hop, hop, aluStep_setC op (by simp [carryTerm, huc])]
  · obtain ⟨t, ht⟩ := exec_completes i s
    obtain ⟨u, hu⟩ := exec_completes i (s.setC b)
    exact ⟨t, u, ht, hu, by rw [exec_pc ht, exec_pc hu]; rfl⟩

/-- Settles O24: USC inverts UC; ADD and SUB keep it and read it through the carry term alone, in which they are
injective; the rest let it through. -/
theorem carryEnableReadersAndWriters : Obligations.CarryEnableReadersAndWriters := by
  refine fun i s b => ⟨?_, fun h => ?_, fun husc hadd hsub => passesThrough_setUc husc hadd hsub b s⟩
  · rintro rfl
    exact ⟨_, exec_usc s, rfl⟩
  · obtain ⟨op, hop⟩ := exec_eq_aluStep (h.imp (congrArg _) (congrArg _))
    refine ⟨_, _, hop s, hop _, rfl, fun hc => ?_, fun hc => ?_⟩
    · rw [aluStep_setUc op (by simp [carryTerm, hc])]
      rfl
    · rw [raise_z, raise_z, aluStep_z, aluStep_z]
      simp [maskNibble_alu_inj_carry, carryTerm, hc]

/-- Settles O25: WT1 and WT2 join their immediate to the other nibble of LOC, the four transfers act at LOC, and the rest
let it through. -/
theorem locReadersAndWriters : Obligations.LocReadersAndWriters := by
  refine ⟨fun imm s => ⟨_, exec_wt1 imm s, ?_⟩, fun imm s => ⟨_, exec_wt2 imm s, ?_⟩, fun s => ?_,
    fun i s v h => passesThrough_setLoc h v s⟩
  · simp [withHighNibble_eq]
  · simp [withLowNibble_eq]
  · exact ⟨_, _, _, _, exec_ztr s, exec_rtz s, exec_rtx s, exec_rty s, rfl, rfl, rfl, rfl, by simp, rfl, rfl, rfl⟩

/-- Settles O26: PC1 and PC2 join their immediate to the other nibble of TPC, JMP decrements it, and the rest let it
through. -/
theorem tpcReadersAndWriters : Obligations.TpcReadersAndWriters := by
  refine ⟨fun imm s => ⟨_, exec_pc1 imm s, ?_⟩, fun imm s => ⟨_, exec_pc2 imm s, ?_⟩,
    fun s => ⟨_, exec_jmp s, ?_, rfl⟩, fun i s v h => passesThrough_setTpc h v s⟩
  · simp [withLowNibble_eq]
  · simp [withHighNibble_eq]
  · simp [BitVec.toNat_sub, Nat.add_comm]

end Sys2Proof
end

section
/-! The frame of every instruction by the register access table (10_state.md R36): a column that a row does not write is
unchanged, and what a row writes depends on the columns it reads; O27. -/

namespace Sys2Proof

open Sys2Proof.Machine

section
variable {k : Column} {s t : State}

theorem SameColumn.refl (k : Column) (s : State) : SameColumn k s s := by
  cases k
  case ram => exact fun _ => rfl
  all_goals rfl

/-- CHG is no column of the table. -/
theorem sameColumn_raise (sets : ChangeFlags) : SameColumn k s (raise sets t) ↔ SameColumn k s t := by
  cases k <;> rfl

theorem sameColumn_setX (hk : k ∉ [Column.x]) (v : Nibble) : SameColumn k s (s.setX v) := by
  cases k <;> simp [SameColumn] at hk ⊢

theorem sameColumn_setY (hk : k ∉ [Column.y]) (v : Nibble) : SameColumn k s (s.setY v) := by
  cases k <;> simp [SameColumn] at hk ⊢

theorem sameColumn_setZ (hk : k ∉ [Column.z]) (v : Nibble) : SameColumn k s (s.setZ v) := by
  cases k <;> simp [SameColumn] at hk ⊢

theorem sameColumn_setLoc (hk : k ∉ [Column.loc]) (v : Byte) : SameColumn k s (s.setLoc v) := by
  cases k <;> simp [SameColumn] at hk ⊢

theorem sameColumn_setTpc (hk : k ∉ [Column.tpc]) (v : Byte) : SameColumn k s (s.setTpc v) := by
  cases k <;> simp [SameColumn] at hk ⊢

theorem sameColumn_setUc (hk : k ∉ [Column.uc]) (b : Bool) : SameColumn k s (s.setUc b) := by
  cases k <;> simp [SameColumn] at hk ⊢

theorem sameColumn_setTpc_setPc (hk : k ∉ [Column.tpc, Column.pc]) (v w : Byte) :
    SameColumn k s ((s.setTpc v).setPc w) := by
  cases k <;> simp [SameColumn] at hk ⊢

theorem sameColumn_aluStep (hk : k ∉ [Column.z, Column.c]) (op : AluOp) : SameColumn k s (aluStep op s) := by
  cases k <;> simp [SameColumn] at hk ⊢

theorem sameColumn_memWrite (hk : k ∉ [Column.ram]) (a : Byte) (v : Nibble) : SameColumn k s (memWrite s a v) := by
  cases k <;> simp [SameColumn] at hk ⊢

/-- A column that the instruction's row does not write is unchanged. -/
theorem exec_sameColumn {i : Instr} (h : exec i s = .next t) (hk : k ∉ writes i) : SameColumn k s t := by
  cases i <;> cases h
  case nop => exact SameColumn.refl k s
  case add | sub => exact (sameColumn_raise _).mpr (sameColumn_aluStep hk _)
  case wt1 | wt2 => exact (sameColumn_raise _).mpr (sameColumn_setLoc hk _)
  case wtx | rtx => exact (sameColumn_raise _).mpr (sameColumn_setX hk _)
  case wty | rty => exact (sameColumn_raise _).mpr (sameColumn_setY hk _)
  case wtz | rtz => exact (sameColumn_raise _).mpr (sameColumn_setZ hk _)
  case ztr => exact (sameColumn_raise _).mpr (sameColumn_memWrite hk _ _)
  case pc1 | pc2 => exact (sameColumn_raise _).mpr (sameColumn_setTpc hk _)
  case jmp => exact sameColumn_setTpc_setPc hk _ _
  case usc => exact sameColumn_setUc hk _

end

/-- What an instruction writes depends on the columns its row reads alone. -/
theorem exec_writes_congr {i : Instr} {s s' t t' : State} (h : exec i s = .next t) (h' : exec i s' = .next t')
    (hreads : ∀ k ∈ reads i, SameColumn k s s') : ∀ k ∈ writes i, SameColumn k t t' := by
  cases i <;> cases h <;> cases h'
  case nop | wtx | wty | wtz => simp [writes, SameColumn]
  case add | sub =>
    have hx : s.x = s'.x := hreads .x (by simp [reads])
    have hy : s.y = s'.y := hreads .y (by simp [reads])
    have hc : s.c = s'.c := hreads .c (by simp [reads])
    have huc : s.uc = s'.uc := hreads .uc (by simp [reads])
    simp [writes, SameColumn, aluStep_z, aluStep_c, carryTerm, hx, hy, hc, huc]
  case wt1 | wt2 =>
    have hloc : s.loc = s'.loc := hreads .loc (by simp [reads])
    simp [writes, SameColumn, hloc]
  case ztr =>
    have hz : s.z = s'.z := hreads .z (by simp [reads])
    have hloc : s.loc = s'.loc := hreads .loc (by simp [reads])
    have hram : ∀ a, memRead s a = memRead s' a := hreads .ram (by simp [reads])
    refine List.forall_mem_singleton.mpr fun a => ?_
    rw [memRead_raise, memRead_raise, memRead_memWrite, memRead_memWrite, ramAddress, ramAddress, hz, hloc, hram]
  case rtz | rtx | rty =>
    have hloc : s.loc = s'.loc := hreads .loc (by simp [reads])
    have hram : ∀ a, memRead s a = memRead s' a := hreads .ram (by simp [reads])
    simp [writes, SameColumn, ramOperand, ramAddress, hloc, hram]
  case pc1 | pc2 | jmp =>
    have htpc : s.tpc = s'.tpc := hreads .tpc (by simp [reads])
    simp [writes, SameColumn, jumpTpc, htpc]
  case usc =>
    have huc : s.uc = s'.uc := hreads .uc (by simp [reads])
    simp [writes, SameColumn, huc]

/-- ZTR keeps every nibble but the one at its address, and every byte but that nibble's (20_memory.md R54). -/
theorem ztr_frame {s t : State} (h : exec .ztr s = .next t) :
    (∀ a : Byte, a ≠ ramAddress s → memRead t a = memRead s a) ∧
      ∀ k : Nat, k ≠ nibbleByte (ramAddress s) → ramByte t k = ramByte s k := by
  cases h
  refine ⟨fun a ha => memRead_memWrite_other s s.z ha, fun k hk => ?_⟩
  exact (ramByte_memWrite s _ s.z k).trans (if_neg hk.symm)

/-- Settles O27: the frame of each column, of ROM and of RAM, and the dependence on what the row reads. -/
theorem instructionsWriteOnlyTheirColumns : Obligations.InstructionsWriteOnlyTheirColumns := by
  refine ⟨fun i s => ?_, fun i s s' hreads => ?_⟩
  · obtain ⟨t, ht⟩ := exec_completes i s
    refine ⟨t, ht, fun k hk => exec_sameColumn ht hk, fun a => ?_, fun hi k => ?_, ?_⟩
    · rw [romRead, exec_rom ht, romRead]
    · rw [ramByte, exec_ram ht, if_neg hi, ramByte]
    · rintro rfl
      exact ztr_frame ht
  · obtain ⟨t, ht⟩ := exec_completes i s
    obtain ⟨t', ht'⟩ := exec_completes i s'
    exact ⟨t, t', ht, ht', exec_writes_congr ht ht' hreads⟩

end Sys2Proof
end

section
/-! The nibbles of a byte as numbers, and the nibble memory by its formulas (20_memory.md R52 to R57, R66);
O28 to O32 and O20. -/

namespace Sys2Proof.Machine

theorem toNat_getNibble (byte : Byte) (sh : Nat) : (getNibble byte sh).toNat = byte.toNat >>> sh % 16 := by
  simp [getNibble]

/-- A byte is its low nibble plus 16 times its high nibble. -/
theorem toNat_eq_nibbles (byte : Byte) :
    byte.toNat = (getNibble byte 0).toNat + 16 * (getNibble byte 4).toNat := by
  have hbyte : byte.toNat < 256 := byte.isLt
  simp only [toNat_getNibble, Nat.shiftRight_eq_div_pow]
  omega

/-- MemRead in terms of the RAM byte that holds its nibble. -/
theorem memRead_eq_getNibble (s : State) (a : Byte) :
    memRead s a = getNibble (ramByte s (a.toNat / 2)) (4 * (a.toNat % 2)) := by
  rw [memRead, nibbleByte_eq, nibbleShift_eq, ramByte]

theorem memRead_even (s : State) {k : Nat} (hk : k < 128) :
    memRead s (BitVec.ofNat 8 (2 * k)) = getNibble (ramByte s k) 0 := by
  have ha : (BitVec.ofNat 8 (2 * k)).toNat = 2 * k :=
    (BitVec.toNat_ofNat _ _).trans (Nat.mod_eq_of_lt (by omega))
  rw [memRead_eq_getNibble, ha, show 2 * k / 2 = k by omega, show 4 * (2 * k % 2) = 0 by omega]

theorem memRead_odd (s : State) {k : Nat} (hk : k < 128) :
    memRead s (BitVec.ofNat 8 (2 * k + 1)) = getNibble (ramByte s k) 4 := by
  have ha : (BitVec.ofNat 8 (2 * k + 1)).toNat = 2 * k + 1 :=
    (BitVec.toNat_ofNat _ _).trans (Nat.mod_eq_of_lt (by omega))
  rw [memRead_eq_getNibble, ha, show (2 * k + 1) / 2 = k by omega, show 4 * ((2 * k + 1) % 2) = 4 by omega]

/-- A RAM byte is its even nibble plus 16 times its odd one (20_memory.md R57). -/
theorem ramByte_eq_nibbles (s : State) {k : Nat} (hk : k < 128) :
    (ramByte s k).toNat = (memRead s (BitVec.ofNat 8 (2 * k))).toNat +
      16 * (memRead s (BitVec.ofNat 8 (2 * k + 1))).toNat := by
  rw [memRead_even s hk, memRead_odd s hk, toNat_eq_nibbles]

/-- The sibling of a nibble is another nibble (20_memory.md R54). -/
theorem sibling_ne (a : Byte) : a ^^^ 0x01#8 ≠ a := by simp

/-- A byte after its low nibble is replaced: the high half is kept (20_memory.md R54). -/
theorem toNat_putNibble_low (byte : Byte) (v : Nibble) :
    (putNibble byte 0 v).toNat = byte.toNat / 16 * 16 + v.toNat := by
  have hv : v.toNat < 16 := v.isLt
  rw [toNat_eq_nibbles (putNibble byte 0 v), getNibble_putNibble_same byte v (.inl rfl),
    getNibble_putNibble_sibling byte v (.inl rfl) (.inr rfl) (by decide), toNat_eq_nibbles byte]
  have hlow : (getNibble byte 0).toNat < 16 := (getNibble byte 0).isLt
  omega

/-- A byte after its high nibble is replaced: the low half is kept (20_memory.md R54). -/
theorem toNat_putNibble_high (byte : Byte) (v : Nibble) :
    (putNibble byte 4 v).toNat = v.toNat * 16 + byte.toNat % 16 := by
  rw [toNat_eq_nibbles (putNibble byte 4 v), getNibble_putNibble_same byte v (.inr rfl),
    getNibble_putNibble_sibling byte v (.inr rfl) (.inl rfl) (by decide), toNat_eq_nibbles byte]
  have hlow : (getNibble byte 0).toNat < 16 := (getNibble byte 0).isLt
  omega

section
variable (s : State)
theorem length_outputs_ram : (outputs s).ram.length = 128 := by
  simp [outputs, Config.ramBytes]

theorem length_outputs_rom : (outputs s).rom.length = 256 := by
  simp [outputs, Config.romBytes]

theorem getElem?_outputs_ram {k : Nat} (hk : k < 128) : (outputs s).ram[k]? = some (ramByte s k) := by
  simp [outputs, Config.ramBytes, hk]

theorem getElem?_outputs_rom (a : Byte) : (outputs s).rom[a.toNat]? = some (romRead s a) := by
  have ha : a.toNat < 256 := a.isLt
  simp [outputs, romRead, Config.romBytes, ha]
end

end Sys2Proof.Machine

namespace Sys2Proof

open Sys2Proof.Machine

/-- Settles O28: the two nibble addresses of a byte are its two shifts. -/
theorem nibblesAreHalvesOfRamBytes : Obligations.NibblesAreHalvesOfRamBytes := by
  intro s k hk
  have hbyte : (ramByte s k).toNat < 256 := (ramByte s k).isLt
  rw [memRead_even s hk, memRead_odd s hk, toNat_getNibble, toNat_getNibble, Nat.shiftRight_zero,
    Nat.shiftRight_eq_div_pow]
  exact ⟨rfl, by omega⟩

/-- Settles O29: the formula of R53 in numbers; its value is a nibble; and it reads the state through RAM alone. -/
theorem memReadFollowsItsFormula : Obligations.MemReadFollowsItsFormula := by
  refine ⟨fun s a => ?_, fun s a => Nat.le_of_lt_succ (memRead s a).isLt, fun s t a h => memRead_congr h a⟩
  have hmask : ∀ n, n &&& 0xF = n % 16 := fun n => Nat.and_two_pow_sub_one_eq_mod n 4
  rw [memRead_eq_getNibble, toNat_getNibble, hmask, Nat.and_one_is_mod, Nat.shiftRight_one]

/-- Settles O30: one byte changes, in the half that its nibble's address names, and no other nibble. -/
theorem memWriteChangesOneNibble : Obligations.MemWriteChangesOneNibble := by
  intro s a v
  refine ⟨?_, fun k hk => ?_, memRead_memWrite_other s v (sibling_ne a), fun b hb => memRead_memWrite_other s v hb⟩
  · rw [ramByte_memWrite, if_pos (nibbleByte_eq a), nibbleShift_eq]
    split
    · next heven => rw [heven, Nat.mul_zero, toNat_putNibble_low]
    · next hodd => rw [Nat.mod_two_ne_zero.mp hodd, Nat.mul_one, toNat_putNibble_high]
  · rw [ramByte_memWrite, nibbleByte_eq, if_neg hk.symm]

/-- Settles O31: the read at the address itself, and at its sibling, which is another address. -/
theorem nibbleRoundTrip : Obligations.NibbleRoundTrip :=
  fun s a v => ⟨memRead_memWrite_same s a v, memRead_memWrite_other s v (sibling_ne a)⟩

theorem applyWrites_cons (s : State) (w : Byte × Nibble) (ws : List (Byte × Nibble)) :
    applyWrites s (w :: ws) = applyWrites (memWrite s w.1 w.2) ws := rfl

theorem latestWrite_cons (w : Byte × Nibble) (ws : List (Byte × Nibble)) (a : Byte) (before : Nibble) :
    latestWrite (w :: ws) a before = latestWrite ws a (if w.1 = a then w.2 else before) := rfl

/-- The oldest write sets what the rest find before them, as in the model's definition of the latest write. -/
theorem memRead_applyWrites (ws : List (Byte × Nibble)) (a : Byte) :
    ∀ s : State, memRead (applyWrites s ws) a = latestWrite ws a (memRead s a) := by
  induction ws with
  | nil => exact fun _ => rfl
  | cons w ws ih =>
    intro s
    rw [applyWrites_cons, latestWrite_cons, ih, memRead_memWrite]
    simp only [eq_comm (a := a)]

/-- Settles O32: by induction on the writes; before the first one a created machine reads 0. -/
theorem readReturnsTheLatestWrite : Obligations.ReadReturnsTheLatestWrite := by
  refine ⟨fun s ws a => memRead_applyWrites ws a s, fun rom ws a => ?_⟩
  rw [memRead_applyWrites, memRead_initial]

/-- Settles O20: the registers and flags are copied, and the memories are listed in the order of their addresses. -/
theorem outputsShowTheState : Obligations.OutputsShowTheState :=
  fun s => ⟨rfl, rfl, rfl, rfl, length_outputs_ram s, length_outputs_rom s,
    fun k hk => ⟨ramByte s k, getElem?_outputs_ram s hk, ramByte_eq_nibbles s hk⟩, getElem?_outputs_rom s, rfl⟩

end Sys2Proof
end

section
/-! What a load puts in ROM, and what changes ROM and RAM after it (20_memory.md R50, R63 to R65);
O16 and O33 to O36. -/

namespace Sys2Proof.Machine

theorem loadProgram_of_ne_nil {bytes : List Byte} (h : bytes ≠ []) :
    loadProgram bytes = .ok (Memory.ofBytes 0 (bytes.take Config.maxProgramBytes)) := by
  cases bytes with
  | nil => exact absurd rfl h
  | cons b bs => rfl

/-- What the image of a load reads as: the bytes it copies, and 0x00 after them (20_memory.md R63). -/
theorem read_loadedImage (bytes : List Byte) (a : Nat) :
    Memory.read (Memory.ofBytes 0 (bytes.take Config.maxProgramBytes)) a =
      (bytes.take Config.maxProgramBytes).getD a 0x00#8 := by
  rw [Memory.read_ofBytes, if_pos (Nat.zero_le a), Nat.sub_zero, Memory.unlisted]

section
variable (inp : Inputs) (s : State)
@[simp] theorem applyClears_ram : (applyClears inp s).ram = s.ram := rfl
@[simp] theorem applyClears_rom : (applyClears inp s).rom = s.rom := rfl
@[simp] theorem fetch_applyClears : fetch (applyClears inp s) = fetch s := rfl
end

theorem cycle_rom {inp : Inputs} {s t : State} (hreset : inp.reset = false) (h : cycle inp s = .next t) :
    t.rom = s.rom := by
  obtain ⟨hr, -⟩ | ⟨-, -, -, hstep⟩ | ⟨-, -, -, rfl⟩ := cycle_cases h
  · simp [hreset] at hr
  · exact (step_rom hstep).trans (applyClears_rom inp s)
  · rfl

/-- A cycle that runs no ZTR and is no reset leaves RAM as it is (20_memory.md R65). -/
theorem cycle_ram {inp : Inputs} {s t : State} (hreset : inp.reset = false)
    (hno : inp.stepReq = false ∨ decode (fetch s) ≠ .ztr) (h : cycle inp s = .next t) : t.ram = s.ram := by
  obtain ⟨hr, -⟩ | ⟨-, -, hreq, hstep⟩ | ⟨-, -, -, rfl⟩ := cycle_cases h
  · simp [hreset] at hr
  · have hztr : decode (fetch s) ≠ .ztr := hno.resolve_left (by simp [hreq])
    rw [step_ram hstep, fetch_applyClears, if_neg hztr, applyClears_ram]
  · rfl

end Sys2Proof.Machine

namespace Sys2Proof

open Sys2Proof.Machine

/-- No instruction addresses ROM as data (20_memory.md R64). -/
theorem passesThrough_setRom (i : Instr) (m : Memory) : PassesThrough i (·.setRom m) := by
  cases i <;> exact fun _ => ⟨_, rfl, rfl⟩

/-- Settles O36: the one store of the machine is within the RAM, and no step writes ROM. -/
theorem stepKeepsMemoryForm : Obligations.StepKeepsMemoryForm :=
  fun _ _ => memInv_step

/-- Settles O16: a nonempty load is the image of its first 255 bytes, which end where the program or the 255 do. -/
theorem loadProgramFillsRom : Obligations.LoadProgramFillsRom := by
  refine ⟨rfl, rfl, fun bytes h => ⟨_, loadProgram_of_ne_nil h,
    create_eq_ok.mpr ⟨_, loadProgram_of_ne_nil h, rfl⟩, fun a _ => ⟨fun hin => ?_, fun hout => ?_⟩⟩⟩
  · obtain ⟨hlen, hmax⟩ := Nat.lt_min.mp hin
    rw [read_loadedImage, Config.maxProgramBytes, List.getD_eq_getElem?_getD, List.getElem?_take_of_lt hmax,
      List.getElem?_eq_getElem hlen, Option.getD_some]
  · rw [read_loadedImage, List.getD_eq_default]
    rw [List.length_take, Config.maxProgramBytes, Nat.min_comm]
    exact hout

/-- Settles O33: no step and no cycle outside reset writes ROM, and every instruction lets another ROM through. -/
theorem romNeverChangesAfterTheLoad : Obligations.RomNeverChangesAfterTheLoad :=
  ⟨fun _ _ => step_rom, fun _ _ _ => cycle_rom, fun i s m => passesThrough_setRom i m s⟩

/-- Settles O34: a created machine starts from the zero RAM, and ZTR holds the only store. -/
theorem onlyZtrChangesRam : Obligations.OnlyZtrChangesRam := by
  refine ⟨fun bytes s h a => ?_, fun i s hi => ?_, fun _ _ _ => cycle_ram⟩
  · obtain ⟨rom, -, rfl⟩ := create_eq_ok.mp h
    exact memRead_initial rom a
  · obtain ⟨t, ht⟩ := exec_completes i s
    exact ⟨t, ht, by rw [exec_ram ht, if_neg hi]⟩

/-- Settles O35: both memories of State.reset list nothing, and a created machine is a loaded one. -/
theorem memoryFormHoldsAtReset : Obligations.MemoryFormHoldsAtReset :=
  ⟨⟨Memory.wf_nil _, Memory.wf_nil _⟩, fun _ _ h => loadedMachine_create h⟩

end Sys2Proof
end

section
/-! The decoder and the encoder as inverse functions of the two fields of a byte (30_encoding.md R81, R84, R85, R87); O4,
O3, O1 and O2 from that. -/

namespace Sys2Proof

open Sys2Proof.Machine

theorem highNibble_eq_ofNat (b : Byte) : highNibble b = BitVec.ofNat 4 (b.toNat / 16) := by
  rw [highNibble, BitVec.extractLsb', Nat.shiftRight_eq_div_pow]

theorem lowNibble_eq_ofNat (b : Byte) : lowNibble b = BitVec.ofNat 4 (b.toNat % 16) :=
  BitVec.eq_of_toNat_eq (by simp [lowNibble])

theorem decode_eq_instrOf (b : Byte) : decode b = instrOf (highNibble b) (lowNibble b) := rfl

theorem decode_join (op imm : Nibble) : decode (joinNibbles op imm) = instrOf op imm := by
  rw [decode_eq_instrOf, highNibble_join, lowNibble_join]

/-- Every opcode has its row in the opcode map (30_encoding.md R84). -/
theorem exists_mnemonic_opcode : ∀ op : Nibble, ∃ m : Mnemonic, m.opcode = op := by
  intro op
  have hrow : op = (instrOf op 0x0#4).mnemonic.opcode := by revert op; decide
  exact ⟨_, hrow.symm⟩

/-- The row of the opcode map with a mnemonic's opcode is the mnemonic's own (30_encoding.md R84). -/
theorem mnemonic_instrOf_opcode (m : Mnemonic) (imm : Nibble) : (instrOf m.opcode imm).mnemonic = m := by
  cases m <;> rfl

/-- The immediate is used in format OI alone (30_encoding.md R82, R85). -/
theorem immediate?_instrOf_opcode (m : Mnemonic) (imm : Nibble) :
    (instrOf m.opcode imm).immediate? = if m.format = .oi then some imm else none := by
  cases m <;> rfl

/-- An instruction is the row of its own opcode at its own immediate, whatever stands in for an immediate it lacks. -/
theorem instrOf_opcode_immediate (i : Instr) (unused : Nibble) :
    instrOf i.mnemonic.opcode (i.immediate?.getD unused) = i := by
  cases i <;> simp only [Instr.mnemonic] <;> rfl

theorem decode_encode (i : Instr) : decode (encode i) = i := by
  rw [encode, decode_join, instrOf_opcode_immediate]

theorem opcode_decode (b : Byte) : (decode b).mnemonic.opcode = highNibble b := by
  obtain ⟨m, hm⟩ := exists_mnemonic_opcode (highNibble b)
  rw [decode_eq_instrOf, ← hm, mnemonic_instrOf_opcode]

theorem immediate?_decode (b : Byte) :
    (decode b).immediate? = if (decode b).mnemonic.format = .oi then some (lowNibble b) else none := by
  obtain ⟨m, hm⟩ := exists_mnemonic_opcode (highNibble b)
  rw [decode_eq_instrOf, ← hm, mnemonic_instrOf_opcode, immediate?_instrOf_opcode]

theorem Instr.eq_of_opcode_of_immediate {i j : Instr} (hop : i.mnemonic.opcode = j.mnemonic.opcode)
    (himm : i.immediate? = j.immediate?) : i = j := by
  rw [← instrOf_opcode_immediate i 0x0#4, hop, himm, instrOf_opcode_immediate]

theorem mnemonic_decode_congr {b b' : Byte} (h : highNibble b = highNibble b') :
    (decode b).mnemonic = (decode b').mnemonic := by
  obtain ⟨m, hm⟩ := exists_mnemonic_opcode (highNibble b)
  rw [decode_eq_instrOf, decode_eq_instrOf, ← h, ← hm, mnemonic_instrOf_opcode, mnemonic_instrOf_opcode]

/-- Two bytes are one instruction exactly when their opcodes and any used immediates agree (30_encoding.md R85). -/
theorem decode_eq_decode_iff (b b' : Byte) :
    decode b = decode b' ↔
      highNibble b = highNibble b' ∧ ((decode b).mnemonic.format = .oi → lowNibble b = lowNibble b') := by
  constructor
  · intro h
    refine ⟨by rw [← opcode_decode, h, opcode_decode], fun hoi => ?_⟩
    have himm : (decode b).immediate? = (decode b').immediate? := congrArg _ h
    rw [immediate?_decode, immediate?_decode, ← h, if_pos hoi, if_pos hoi] at himm
    exact Option.some.inj himm
  · rintro ⟨hop, himm⟩
    refine Instr.eq_of_opcode_of_immediate (by rw [opcode_decode, opcode_decode, hop]) ?_
    rw [immediate?_decode, immediate?_decode, ← mnemonic_decode_congr hop]
    split
    · next hoi => rw [himm hoi]
    · rfl

/-- Settles O4: decoding reads back the two fields that encoding joins; and encoding what a byte decodes to joins the
byte's opcode with the immediate that was kept, or 0. -/
theorem encodeAndDecodeAgree : Obligations.EncodeAndDecodeAgree := by
  refine ⟨fun i _ => decode_encode i, fun b => ?_⟩
  rw [encode, opcode_decode, immediate?_decode]
  cases (decode b).mnemonic.format <;> rfl

/-- Settles O3: the decoded instruction is its opcode and its used immediate, and every instruction completes. -/
theorem lowNibbleIgnoredExactlyByFormatO : Obligations.LowNibbleIgnoredExactlyByFormatO :=
  ⟨decode_eq_decode_iff, fun b => exec_completes (decode b)⟩

/-- Settles O1: the two nibbles are the quotient and the remainder by 16. -/
theorem byteSplitsIntoOpcodeAndImmediate : Obligations.ByteSplitsIntoOpcodeAndImmediate := by
  refine ⟨fun b => ?_, fun b => ?_⟩
  · rw [decodeFields, highNibble_eq_ofNat, lowNibble_eq_ofNat]
  · rw [decode_eq_instrOf, highNibble_eq_ofNat, lowNibble_eq_ofNat]

/-- Settles O2: decoding splits the byte into the opcode written out and the immediate, and the opcode selects its row. -/
theorem opcodeMapSelectsInstruction : Obligations.OpcodeMapSelectsInstruction := by
  intro imm
  have hsplit (op : Nibble) : decode (op ++ imm) = instrOf op imm := decode_join op imm
  simp only [hsplit]
  exact ⟨rfl, rfl, rfl, rfl, rfl, rfl, rfl, rfl, rfl, rfl, rfl, rfl, rfl, rfl, rfl, rfl⟩

end Sys2Proof
end

section
/-! The assembly statements of 30_encoding.md R87 and R88: when one stands for nothing, what it stands for otherwise, and
where the steps of an expansion lead; O5 from that. -/

namespace Sys2Proof

open Sys2Proof.Machine

/-- The statements that stand for nothing are the ill-formed ones. -/
theorem AsmStmt.expand_eq_none_iff (a : AsmStmt) : a.expand = none ↔ a.wellFormed = false := by
  cases h : a.wellFormed
  case false => simp [AsmStmt.expand, h]
  case true => cases a <;> simp [AsmStmt.expand, h]

theorem AsmStmt.expand_core {m : Mnemonic} {operand : Option Nat} (h : (AsmStmt.core m operand).wellFormed = true) :
    (AsmStmt.core m operand).expand = some [instrOf m.opcode (BitVec.ofNat 4 (operand.getD 0))] := by
  simp [AsmStmt.expand, h]

section
variable {a : Nat}

theorem AsmStmt.expand_setloc (h : a ≤ 255) :
    (AsmStmt.setloc a).expand = some [.wt1 (operandHigh a), .wt2 (operandLow a)] := by
  simp [AsmStmt.expand, AsmStmt.wellFormed, h]

theorem AsmStmt.expand_settpc (h : a ≤ 255) :
    (AsmStmt.settpc a).expand = some [.pc1 (operandLow a), .pc2 (operandHigh a)] := by
  simp [AsmStmt.expand, AsmStmt.wellFormed, h]

theorem AsmStmt.expand_goto (h : a ≤ 255) :
    (AsmStmt.goto a).expand = some [.pc1 (operandLow a), .pc2 (operandHigh a), .jmp] := by
  simp [AsmStmt.expand, AsmStmt.wellFormed, h]

theorem toNat_operand (h : a ≤ 255) : (BitVec.ofNat 8 a).toNat = a := by
  rw [BitVec.toNat_ofNat, Nat.mod_eq_of_lt (by omega)]

theorem operandHigh_eq_ofNat (h : a ≤ 255) : operandHigh a = BitVec.ofNat 4 (a / 16) := by
  rw [operandHigh, highNibble_eq_ofNat, toNat_operand h]

theorem operandLow_eq_ofNat (h : a ≤ 255) : operandLow a = BitVec.ofNat 4 (a % 16) := by
  rw [operandLow, lowNibble_eq_ofNat, toNat_operand h]

end

theorem join_operand (a : Nat) : joinNibbles (operandHigh a) (operandLow a) = BitVec.ofNat 8 a :=
  join_nibbles (BitVec.ofNat 8 a)

/-- The operand of an instruction as written, or its absence, passes the check of 30_encoding.md R87. -/
theorem AsmStmt.wellFormed_core_of_instr (i : Instr) :
    (AsmStmt.core i.mnemonic (i.immediate?.map BitVec.toNat)).wellFormed = true := by
  cases i
  case wt1 imm | wt2 imm | wtx imm | wty imm | wtz imm | pc1 imm | pc2 imm =>
    exact Laws.EncodedFields.imm_wellFormed imm
  all_goals rfl

/-- A core statement with an instruction's operand stands for that instruction (30_encoding.md R87). -/
theorem AsmStmt.expand_core_of_instr (i : Instr) :
    (AsmStmt.core i.mnemonic (i.immediate?.map BitVec.toNat)).expand = some [i] := by
  have himm : BitVec.ofNat 4 ((i.immediate?.map BitVec.toNat).getD 0) = i.immediate?.getD 0x0#4 := by
    cases i.immediate? <;> simp
  rw [AsmStmt.expand_core (AsmStmt.wellFormed_core_of_instr i), himm, instrOf_opcode_immediate]

section
variable {m : Mnemonic}

theorem AsmStmt.core_illFormed_of_operand_gt {v : Nat} (h : 15 < v) :
    (AsmStmt.core m (some v)).wellFormed = false := by
  cases hf : m.format <;> simp [AsmStmt.wellFormed, hf, h]

theorem AsmStmt.core_illFormed_of_extra_operand (v : Nat) (h : m.format = .o) :
    (AsmStmt.core m (some v)).wellFormed = false := by
  simp [AsmStmt.wellFormed, h]

theorem AsmStmt.core_illFormed_of_missing_operand (h : m.format = .oi) :
    (AsmStmt.core m none).wellFormed = false := by
  simp [AsmStmt.wellFormed, h]

end

/-- A run of given instructions goes on from the state its first instruction leaves. -/
theorem runInstrs_cons {i : Instr} {is : List Instr} {s t : State} (h : exec i s = .next t) :
    runInstrs (i :: is) s = runInstrs is (endStep t) := by
  rw [runInstrs, h, finishStep]

/-- Two half writes, high then low, replace the whole register. -/
theorem withLowNibble_withHighNibble (r : Byte) (hi lo : Nibble) :
    withLowNibble (withHighNibble r hi) lo = joinNibbles hi lo := by
  rw [withLowNibble_eq, withHighNibble_eq, highNibble_join]

/-- Two half writes, low then high, replace the whole register. -/
theorem withHighNibble_withLowNibble (r : Byte) (hi lo : Nibble) :
    withHighNibble (withLowNibble r lo) hi = joinNibbles hi lo := by
  rw [withHighNibble_eq, withLowNibble_eq, lowNibble_join]

/-- WT1 then WT2 with the nibbles of an address leave it in LOC, and TPC as it was (30_encoding.md R88). -/
theorem runInstrs_setloc (a : Nat) (is : List Instr) (s : State) :
    ∃ t, runInstrs (.wt1 (operandHigh a) :: .wt2 (operandLow a) :: is) s = runInstrs is t ∧
      t.loc = BitVec.ofNat 8 a ∧ t.tpc = s.tpc := by
  refine ⟨_, (runInstrs_cons (exec_wt1 _ s)).trans (runInstrs_cons (exec_wt2 _ _)), ?_, by simp⟩
  simp [withLowNibble_withHighNibble, join_operand]

/-- PC1 then PC2 with the nibbles of an address leave it in TPC, and LOC as it was (30_encoding.md R88). -/
theorem runInstrs_settpc (a : Nat) (is : List Instr) (s : State) :
    ∃ t, runInstrs (.pc1 (operandLow a) :: .pc2 (operandHigh a) :: is) s = runInstrs is t ∧
      t.tpc = BitVec.ofNat 8 a ∧ t.loc = s.loc := by
  refine ⟨_, (runInstrs_cons (exec_pc1 _ s)).trans (runInstrs_cons (exec_pc2 _ _)), ?_, by simp⟩
  simp [withHighNibble_withLowNibble, join_operand]

/-- A finished JMP leaves the old TPC in PC and one less in TPC (45_jump.md R212). -/
theorem runInstrs_jmp (is : List Instr) (s : State) :
    ∃ t, runInstrs (.jmp :: is) s = runInstrs is t ∧ t.pc = s.tpc ∧ t.tpc = s.tpc - 0x01#8 :=
  ⟨_, runInstrs_cons (exec_jmp s), by simp, by simp⟩

/-- The steps of GOTO leave its target in PC, and one less in TPC (30_encoding.md R88, 45_jump.md R212). -/
theorem runInstrs_goto (a : Nat) (is : List Instr) (s : State) :
    ∃ t, runInstrs (.pc1 (operandLow a) :: .pc2 (operandHigh a) :: .jmp :: is) s = runInstrs is t ∧
      t.pc = BitVec.ofNat 8 a ∧ t.tpc = BitVec.ofNat 8 a - 0x01#8 := by
  obtain ⟨u, hu, htpc, -⟩ := runInstrs_settpc a (.jmp :: is) s
  obtain ⟨t, ht, hpc, hdec⟩ := runInstrs_jmp is u
  exact ⟨t, hu.trans ht, hpc.trans htpc, htpc ▸ hdec⟩

/-- Settles O5: the expansions are the lists of R88 and their steps write both halves of the register they name; and a
statement stands for nothing exactly when its check fails. -/
theorem assemblyExpandsAsListed : Obligations.AssemblyExpandsAsListed := by
  refine ⟨AsmStmt.expand_core_of_instr, fun a ha => ?_, fun a ha => ?_, fun m v hv => ?_, fun m v hm => ?_,
    fun m hm => ?_, AsmStmt.expand_eq_none_iff, fun a ha s => ?_, fun a ha s => ?_, fun a ha s => ?_⟩
  · rw [← operandHigh_eq_ofNat ha, ← operandLow_eq_ofNat ha]
    exact ⟨AsmStmt.expand_setloc ha, AsmStmt.expand_settpc ha, AsmStmt.expand_goto ha⟩
  · simp only [AsmStmt.expand_eq_none_iff, AsmStmt.wellFormed, decide_eq_false_iff_not]
    omega
  · exact (AsmStmt.expand_eq_none_iff _).mpr (AsmStmt.core_illFormed_of_operand_gt hv)
  · exact (AsmStmt.expand_eq_none_iff _).mpr (AsmStmt.core_illFormed_of_extra_operand v hm)
  · exact (AsmStmt.expand_eq_none_iff _).mpr (AsmStmt.core_illFormed_of_missing_operand hm)
  · obtain ⟨t, hrun, hloc, htpc⟩ := runInstrs_setloc a [] s
    exact ⟨_, t, AsmStmt.expand_setloc ha, hrun, hloc ▸ toNat_operand ha, htpc⟩
  · obtain ⟨t, hrun, htpc, hloc⟩ := runInstrs_settpc a [] s
    exact ⟨_, t, AsmStmt.expand_settpc ha, hrun, htpc ▸ toNat_operand ha, hloc⟩
  · obtain ⟨t, hrun, hpc, htpc⟩ := runInstrs_goto a [] s
    refine ⟨_, t, AsmStmt.expand_goto ha, hrun, hpc ▸ toNat_operand ha, ?_⟩
    rw [htpc, BitVec.toNat_sub, toNat_operand ha, Nat.add_comm]
    rfl

end Sys2Proof
end

section
/-! What a step answers: the decoded instruction's next state with PC advanced, from every state; how it depends on ROM
and CHG, and what it leaves in PC and CHG (40_executor.md R102 to R113); O6 to O12 and O14. -/

namespace Sys2Proof.Machine

theorem run_completes (n : Nat) : ∀ s : State, ∃ t, core.run n s = .next t := by
  induction n with
  | zero => exact fun s => ⟨s, rfl⟩
  | succ n ih =>
    intro s
    obtain ⟨u, hu⟩ := step_completes s
    obtain ⟨t, ht⟩ := ih u
    exact ⟨t, run_succ_eq_next.mpr ⟨u, hu, ht⟩⟩

theorem endStep_pc_toNat (s : State) : (endStep s).pc.toNat = (s.pc.toNat + 1) % 256 := by
  rw [endStep_pc, BitVec.toNat_add]
  rfl

/-- A step of any instruction but JMP goes to the next address (40_executor.md R111). -/
theorem step_pc_of_ne_jmp {s t : State} (h : step s = .next t) (hi : decode (fetch s) ≠ .jmp) :
    t.pc.toNat = (s.pc.toNat + 1) % 256 := by
  obtain ⟨u, hu, rfl⟩ := step_eq_next.mp h
  rw [endStep_pc_toNat, exec_pc hu, if_neg hi]

/-- A step of JMP goes to TPC, the advance of PC undoing the decrement, and leaves TPC decremented (40_executor.md
R111). -/
theorem step_of_jmp {s : State} (hi : decode (fetch s) = .jmp) :
    step s = .next ((s.setTpc (s.tpc - 0x01#8)).setPc s.tpc) := by
  refine step_eq_next.mpr ⟨_, hi ▸ exec_jmp s, ?_⟩
  rw [endStep, State.setPc_pc, BitVec.sub_add_cancel]
  rfl

/-- Over other change flags a step differs in CHG alone, which it unites with the row of its instruction. -/
theorem step_setChg {s t : State} (f : ChangeFlags) (h : step s = .next t) :
    step (s.setChg f) = .next (t.setChg (f.union (changeSets (decode (fetch s)) s.loc))) := by
  obtain ⟨u, hu, rfl⟩ := step_eq_next.mp h
  obtain ⟨g, hg⟩ := exec_setChg f hu
  obtain rfl : g = f.union (changeSets (decode (fetch s)) s.loc) := exec_chg hg
  exact step_eq_next.mpr ⟨_, hg, rfl⟩

section
variable (i : Instr) (loc : Byte)

theorem changeSets_regs : (changeSets i loc).regs = decide (i.mnemonic ∈
    ([.add, .sub, .wt1, .wt2, .wtx, .wty, .wtz, .rtz, .pc1, .pc2, .rtx, .rty] : List Mnemonic)) := by
  cases i <;> rfl

theorem changeSets_mem : (changeSets i loc).mem = decide (i.mnemonic = .ztr) := by
  cases i <;> rfl

theorem changeSets_disp : (changeSets i loc).disp = decide (i.mnemonic = .ztr ∧ loc.toNat < 4) := by
  cases i
  case ztr => exact decide_eq_decide.mpr (and_iff_right rfl).symm
  all_goals rfl

end

end Sys2Proof.Machine

namespace Sys2Proof

open Sys2Proof.Machine

/-- JMP is opcode 12, whatever the low nibble (30_encoding.md R84, R85). -/
theorem decode_eq_jmp_iff (b : Byte) : decode b = .jmp ↔ b.toNat / 16 = 12 := by
  have hop : highNibble 0xC0#8 = highNibble b ↔ b.toNat / 16 = 12 := by
    rw [highNibble_eq_ofNat, highNibble_eq_ofNat, ← BitVec.toNat_inj]
    simp only [BitVec.toNat_ofNat]
    omega
  have hformat : ¬ (decode 0xC0#8).mnemonic.format = .oi := by decide
  calc decode b = .jmp
    _ ↔ decode 0xC0#8 = decode b := eq_comm
    _ ↔ highNibble 0xC0#8 = highNibble b := by rw [decode_eq_decode_iff, and_iff_left (absurd · hformat)]
    _ ↔ b.toNat / 16 = 12 := hop

/-- No instruction but JMP writes PC, and none reads it (40_executor.md R105). -/
theorem passesThrough_setPc {i : Instr} (h : i ≠ .jmp) (v : Byte) : PassesThrough i (·.setPc v) := by
  cases i
  case jmp => exact absurd rfl h
  all_goals exact fun _ => ⟨_, rfl, rfl⟩

/-- Settles O6: every instruction completes, and the end of the step advances PC. -/
theorem stepRunsTheDecodedInstruction : Obligations.StepRunsTheDecodedInstruction := by
  rintro s _ rfl -
  obtain ⟨t, ht⟩ := exec_completes (decode (fetch s)) s
  exact ⟨t, ht, step_eq_next.mpr ⟨t, ht, rfl⟩, rfl⟩

/-- Settles O7: every instruction completes, and the two addresses are 8 and 7 bits wide. -/
theorem stepNeverFails : Obligations.StepNeverFails :=
  fun s => ⟨step_completes s, exec_completes _ s, s.pc.isLt, nibbleByte_lt s.loc⟩

/-- Settles O8, by induction on the number of steps. -/
theorem runOfAnyLengthNeverStops : Obligations.RunOfAnyLengthNeverStops := run_completes

/-- Settles O9: the ranges are those of 4-bit registers, and the opcode tells whether the step was a JMP. -/
theorem stepKeepsRangesAndAdvancesPc : Obligations.StepKeepsRangesAndAdvancesPc := by
  intro s t h
  refine ⟨Nat.le_of_lt_succ t.x.isLt, Nat.le_of_lt_succ t.y.isLt, Nat.le_of_lt_succ t.z.isLt,
    fun hop => step_pc_of_ne_jmp h (mt (decode_eq_jmp_iff _).mp hop), fun hop => ?_⟩
  rw [step_of_jmp ((decode_eq_jmp_iff _).mpr hop)] at h
  cases h
  exact ⟨rfl, by simp [BitVec.toNat_sub, Nat.add_comm]⟩

/-- Settles O10: the end of the step adds 1 to PC; every instruction but JMP lets PC through, and JMP overwrites it from
TPC. -/
theorem onlyJmpWritesPcBeforeTheAdvance : Obligations.OnlyJmpWritesPcBeforeTheAdvance := by
  refine ⟨fun i s => ?_, fun i s v hi => ?_, fun _ _ => rfl⟩
  · obtain ⟨t, ht⟩ := exec_completes i s
    exact ⟨t, endStep t, ht, finishStep_eq_next.mpr ⟨t, ht, rfl⟩, endStep_pc_toNat t⟩
  · obtain ⟨t, ht, ht'⟩ := passesThrough_setPc hi v s
    exact ⟨t, ht, by rw [exec_pc ht, if_neg hi], ht'⟩

/-- Settles O11: the same byte is the same instruction, and every instruction lets another ROM through. -/
theorem romMattersOnlyThroughTheFetchedByte : Obligations.RomMattersOnlyThroughTheFetchedByte := by
  intro s t h hfetch
  obtain ⟨u, hu, hv⟩ := passesThrough_setRom (decode (fetch s)) t.rom s
  simp only [show s.setRom t.rom = t from h, hfetch] at hv
  exact ⟨endStep u, endStep (u.setRom t.rom), step_eq_next.mpr ⟨u, hu, rfl⟩, step_eq_next.mpr ⟨_, hv, rfl⟩, rfl, rfl⟩

/-- Settles O12: CHG is united with the instruction's row, and each flag of the row is as the table lists it. -/
theorem changeFlagsFollowTheTable : Obligations.ChangeFlagsFollowTheTable := by
  intro i s
  obtain ⟨t, ht⟩ := exec_completes i s
  refine ⟨t, ht, ?_⟩
  rw [exec_chg ht, ← changeSets_regs i s.loc, ← changeSets_mem i s.loc, ← changeSets_disp]
  exact ⟨rfl, rfl, rfl⟩

/-- Settles O14: the cycle is the step over the cleared flags, and the row of its instruction does not depend on them. -/
theorem clearsComeBeforeTheStepsSets : Obligations.ClearsComeBeforeTheStepsSets := by
  intro clrRegs clrMem clrDisp s
  obtain ⟨u, hu⟩ := step_completes s
  refine ⟨_, u, _, (cycle_step s rfl rfl rfl).trans (step_setChg _ hu), hu, step_setChg ChangeFlags.clear hu, ?_⟩
  simp [State.setChg, ChangeFlags.union, ChangeFlags.clear, clearFlags]

end Sys2Proof
end

section
/-! NOP (41_nop.md R130): its byte, the bytes that decode to it, and that it answers the state it is given; O38. -/

namespace Sys2Proof

open Sys2Proof.Machine

/-- Settles O38: decoding reads the opcode 0 off the high nibble, whose row is NOP at every immediate, and exec answers the
state itself for it. -/
theorem nopDoesNothing : Obligations.NopDoesNothing := by
  refine ⟨by decide, fun imm => ?_, exec_nop⟩
  calc decode (0x0#4 ++ imm)
    _ = instrOf 0x0#4 imm := decode_join 0x0#4 imm
    _ = .nop := rfl

end Sys2Proof
end

section
/-! What ADD, SUB and USC leave (42_arithmetic.md R140 to R146): the ALU's outputs as numbers, the state that each of the
three answers, and chains of them on nibbles least significant first; O39 to O41 and O54 to O56. -/

namespace Sys2Proof.Machine

theorem toNat_maskNibble (raw : Byte) : (maskNibble raw).toNat = raw.toNat % 16 :=
  BitVec.toNat_setWidth 4 raw

/-- The subtrahend of SUB is at most 16. -/
theorem aluSubtrahend_le (b : Nibble) (cin : Bool) : aluSubtrahend b cin ≤ 16 := by
  have hb := b.isLt
  have hc : cin.toNat ≤ 1 := Bool.toNat_le cin
  simp only [aluSubtrahend]
  omega

theorem toNat_decide (p : Prop) [Decidable p] : (decide p).toNat = if p then 1 else 0 :=
  Bool.cond_decide p 1 0

section
variable (a b : Nibble) (cin : Bool)

theorem toNat_alu_add_raw : (alu .add a b cin).raw.toNat = aluSum a b cin := by
  have hsum := aluSum_le a b cin
  rw [alu, BitVec.toNat_ofNat, Nat.mod_eq_of_lt (by omega)]

/-- Bit 4 of a sum below 32 says whether it is at least 16 (42_arithmetic.md R142). -/
theorem alu_add_carry : (alu .add a b cin).carry = decide (16 ≤ aluSum a b cin) := by
  have hsum := aluSum_le a b cin
  rw [alu, Nat.testBit_eq_decide_div_mod_eq, decide_eq_decide]
  omega

theorem toNat_alu_sub_raw :
    (alu .sub a b cin).raw.toNat = (256 + a.toNat - aluSubtrahend b cin) % 256 := by
  have ha := a.isLt
  have hsb := aluSubtrahend_le b cin
  simp only [alu, BitVec.toNat_sub, BitVec.toNat_ofNat, BitVec.toNat_setWidth]
  omega

end

section
variable (s : State)

/-- The nibble and the carry-out of ADD are the two digits of the sum to the base 16 (42_arithmetic.md R142). -/
theorem aluStep_add_digits :
    (aluStep .add s).z.toNat + 16 * (aluStep .add s).c.toNat = s.x.toNat + s.y.toNat + (carryTerm s).toNat := by
  have hsum := aluSum_le s.x s.y (carryTerm s)
  rw [aluStep_z, toNat_maskNibble, toNat_alu_add_raw, aluStep_c, alu_add_carry, toNat_decide]
  change _ = aluSum s.x s.y (carryTerm s)
  split <;> omega

/-- The 8-bit wrap and the mask of SUB are together reduction modulo 16 (42_arithmetic.md R145). -/
theorem aluStep_sub_z_int :
    ((aluStep .sub s).z.toNat : Int) = ((s.x.toNat : Int) - s.y.toNat - (carryTerm s).toNat) % 16 := by
  have hsb := aluSubtrahend_le s.y (carryTerm s)
  rw [aluStep_z, toNat_maskNibble, toNat_alu_sub_raw]
  simp only [aluSubtrahend] at hsb ⊢
  omega

theorem aluStep_sub_c : (aluStep .sub s).c = decide (s.y.toNat + (carryTerm s).toNat ≤ s.x.toNat) := rfl

/-- An ALU instruction changes Z, C and CHG.regs alone. -/
theorem raise_regsOnly_aluStep (op : AluOp) :
    raise regsOnly (aluStep op s) =
      { s with z := (aluStep op s).z, c := (aluStep op s).c, chg := { s.chg with regs := true } } := by
  have hchg : s.chg.union regsOnly = { s.chg with regs := true } := by simp [ChangeFlags.union]
  rw [← hchg]
  rfl

end

end Sys2Proof.Machine

namespace Sys2Proof

open Sys2Proof.Machine

/-- Settles O39: the row of opcode 1 is ADD; Z and C are the masked sum and its bit 4, and nothing else is written but
CHG.regs. -/
theorem addGivesSumAndCarry : Obligations.AddGivesSumAndCarry := by
  refine ⟨by decide, decode_join 0x1#4, fun s sum hsum => ?_⟩
  replace hsum : sum = aluSum s.x s.y (carryTerm s) := by rw [hsum, aluSum, carryTerm_toNat]
  have hz : (aluStep .add s).z = BitVec.ofNat 4 (sum % 16) := by
    apply BitVec.eq_of_toNat_eq
    rw [aluStep_z, toNat_maskNibble, toNat_alu_add_raw, hsum, BitVec.toNat_ofNat, Nat.mod_mod]
  rw [exec_add, raise_regsOnly_aluStep, hz, aluStep_c, alu_add_carry, hsum]

/-- Settles O40: the row of opcode 2 is SUB; Z is the masked difference and C the comparison, and nothing else is written
but CHG.regs. -/
theorem subGivesDifferenceAndNoBorrow : Obligations.SubGivesDifferenceAndNoBorrow := by
  refine ⟨by decide, decode_join 0x2#4, fun s sb hsb => ?_⟩
  replace hsb : sb = aluSubtrahend s.y (carryTerm s) := by rw [hsb, aluSubtrahend, carryTerm_toNat]
  have hz : (aluStep .sub s).z = BitVec.ofNat 4 ((256 + s.x.toNat - sb) % 256 % 16) := by
    apply BitVec.eq_of_toNat_eq
    rw [aluStep_z, toNat_maskNibble, toNat_alu_sub_raw, hsb, BitVec.toNat_ofNat, Nat.mod_mod]
  rw [exec_sub, raise_regsOnly_aluStep, hz, aluStep_c, alu, hsb]

/-- Settles O41: the row of opcode 15 is USC, which writes UC alone. -/
theorem uscInvertsCarryEnable : Obligations.UscInvertsCarryEnable :=
  ⟨by decide, decode_join 0xF#4, exec_usc⟩

/-- Settles O54: the sum is read off its two digits, the difference off the masked wrap, and the mask keeps the low four
bits. -/
theorem arithmeticIsModuloSixteen : Obligations.ArithmeticIsModuloSixteen := by
  intro s cin hcin
  rw [← carryTerm_toNat] at hcin
  refine ⟨⟨_, exec_add s, ?_, ?_⟩, ⟨_, exec_sub s, ?_, ?_⟩, toNat_maskNibble⟩
  · rw [raise_z, hcin, ← aluStep_add_digits, Nat.add_mul_mod_self_left, Nat.mod_eq_of_lt (BitVec.isLt _)]
  · rw [raise_c, hcin, aluStep_c, alu_add_carry, decide_eq_true_iff, aluSum]
  · rw [raise_z, hcin, aluStep_sub_z_int]
  · rw [raise_c, hcin, aluStep_sub_c, decide_eq_true_iff]

/-- WTX then WTY leave a pair of operands in X and Y, and C and UC as they were. -/
theorem runInstrs_operands (x y : Nibble) (is : List Instr) (s : State) :
    ∃ t, runInstrs (.wtx x :: .wty y :: is) s = runInstrs is t ∧
      t.x = x ∧ t.y = y ∧ t.uc = s.uc ∧ carryTerm t = carryTerm s :=
  ⟨_, (runInstrs_cons (exec_wtx x s)).trans (runInstrs_cons (exec_wty y _)), by simp, by simp, by simp, rfl⟩

/-- ADD on a pair of operands leaves the two digits of the sum in Z and C, and UC as it was. -/
theorem runInstrs_operands_add (x y : Nibble) (is : List Instr) (s : State) :
    ∃ t, runInstrs (.wtx x :: .wty y :: .add :: is) s = runInstrs is t ∧ t.uc = s.uc ∧
      t.z.toNat + 16 * t.c.toNat = x.toNat + y.toNat + (carryTerm s).toNat := by
  obtain ⟨u, hu, rfl, rfl, huc, hcin⟩ := runInstrs_operands x y (.add :: is) s
  exact ⟨_, hu.trans (runInstrs_cons (exec_add u)), huc, hcin ▸ aluStep_add_digits u⟩

/-- SUB on a pair of operands leaves the difference modulo 16 in Z, whether there was no borrow in C, and UC as it was. -/
theorem runInstrs_operands_sub (x y : Nibble) (is : List Instr) (s : State) :
    ∃ t, runInstrs (.wtx x :: .wty y :: .sub :: is) s = runInstrs is t ∧ t.uc = s.uc ∧
      (t.z.toNat : Int) = ((x.toNat : Int) - y.toNat - (carryTerm s).toNat) % 16 ∧
      t.c = decide (y.toNat + (carryTerm s).toNat ≤ x.toNat) := by
  obtain ⟨u, hu, rfl, rfl, huc, hcin⟩ := runInstrs_operands x y (.sub :: is) s
  exact ⟨_, hu.trans (runInstrs_cons (exec_sub u)), huc, hcin ▸ aluStep_sub_z_int u, hcin ▸ aluStep_sub_c u⟩

theorem carryTerm_of_uc {s : State} (h : s.uc = true) : carryTerm s = s.c := by
  rw [carryTerm, h, Bool.true_and]

theorem carryTerm_of_not_uc {s : State} (h : s.uc = false) : carryTerm s = false := by
  rw [carryTerm, h, Bool.false_and]

/-- A chain is its first ADD and the chain on the other pairs. -/
theorem chainAdd_cons {x y : Nibble} {ps : List (Nibble × Nibble)} {s t u : State} {zs : List Nibble}
    (hfirst : runInstrs [.wtx x, .wty y, .add] s = .next t) (hrest : chainAdd ps t = some (zs, u)) :
    chainAdd ((x, y) :: ps) s = some (t.z :: zs, u) := by
  simp only [chainAdd, hfirst, hrest]

/-- One digit of an addition: `c` is carried from the lowest nibbles into the sum of the others. -/
theorem nibblesValue_add_carry {x y z : Nibble} {xs ys zs : List Nibble} {n cin c cout : Nat}
    (hlow : z.toNat + 16 * c = x.toNat + y.toNat + cin)
    (hrest : nibblesValue zs + 16 ^ n * cout = nibblesValue xs + nibblesValue ys + c) :
    nibblesValue (z :: zs) + 16 ^ (n + 1) * cout = nibblesValue (x :: xs) + nibblesValue (y :: ys) + cin := by
  calc nibblesValue (z :: zs) + 16 ^ (n + 1) * cout
    _ = z.toNat + 16 * (nibblesValue zs + 16 ^ n * cout) := by rw [nibblesValue]; ring
    _ = z.toNat + 16 * (nibblesValue xs + nibblesValue ys + c) := by rw [hrest]
    _ = nibblesValue (x :: xs) + nibblesValue (y :: ys) + cin := by rw [nibblesValue, nibblesValue]; omega

/-- With UC true each ADD takes the C of the one before it, so the chain adds the two numbers and the first C. -/
theorem chainAdd_value (ps : List (Nibble × Nibble)) : ∀ s : State, s.uc = true →
    ∃ zs t, chainAdd ps s = some (zs, t) ∧ zs.length = ps.length ∧ t.uc = true ∧
      nibblesValue zs + 16 ^ ps.length * t.c.toNat =
        nibblesValue (ps.map Prod.fst) + nibblesValue (ps.map Prod.snd) + s.c.toNat := by
  induction ps with
  | nil => exact fun s huc => ⟨[], s, rfl, rfl, huc, by simp [nibblesValue]⟩
  | cons p ps ih =>
    obtain ⟨x, y⟩ := p
    intro s huc
    obtain ⟨t, hfirst, htuc, hlow⟩ := runInstrs_operands_add x y [] s
    obtain ⟨zs, u, hrest, hlen, huuc, hvalue⟩ := ih t (htuc.trans huc)
    rw [carryTerm_of_uc huc] at hlow
    exact ⟨t.z :: zs, u, chainAdd_cons hfirst hrest, congrArg (· + 1) hlen, huuc, nibblesValue_add_carry hlow hvalue⟩

/-- USC after a run inverts UC, and leaves Z and C. -/
theorem runInstrs_usc (is : List Instr) (s : State) :
    ∃ t, runInstrs (.usc :: is) s = runInstrs is t ∧ t.uc = (!s.uc) ∧ t.z = s.z ∧ t.c = s.c :=
  ⟨_, runInstrs_cons (exec_usc s), rfl, rfl, rfl⟩

/-- Settles O55: the chain with UC true, by induction on the pairs; with UC false the first ADD takes no carry, and after
USC the same chain takes the C that it left. -/
theorem chainedAddIsMultiNibbleAddition : Obligations.ChainedAddIsMultiNibbleAddition := by
  refine ⟨chainAdd_value, fun x y ps s huc => ?_⟩
  obtain ⟨v, hadd, hvuc, hlow⟩ := runInstrs_operands_add x y [.usc] s
  obtain ⟨t, husc, htuc, htz, htc⟩ := runInstrs_usc [] v
  rw [carryTerm_of_not_uc huc, ← htz, ← htc] at hlow
  obtain ⟨zs, u, hchain, hlen, huuc, hvalue⟩ := chainAdd_value ps t (by rw [htuc, hvuc, huc]; rfl)
  exact ⟨zs, t, u, hadd.trans husc, hchain, hlen, huuc, nibblesValue_add_carry hlow hvalue⟩

/-- Settles O56: the second SUB takes as its carry term the C of the first, which is true where that did not borrow. -/
theorem chainedSubTakesOneMoreWithoutBorrow : Obligations.ChainedSubTakesOneMoreWithoutBorrow := by
  intro x0 y0 x1 y1 s huc
  obtain ⟨t, ht, htuc, -, htc⟩ := runInstrs_operands_sub x0 y0 [] s
  obtain ⟨u, hu, -, huz, -⟩ := runInstrs_operands_sub x1 y1 [] t
  refine ⟨t, u, ht, hu, ?_⟩
  rw [huz, carryTerm_of_uc (htuc.trans huc), htc, carryTerm_of_uc huc, toNat_decide, Nat.cast_ite, Nat.cast_one,
    Nat.cast_zero]

end Sys2Proof
end

section
/-! The immediate loads (43_immediate_loads.md R170 to R174): the byte of each, and the state it answers; O42 to O46. -/

namespace Sys2Proof.Machine

/-- CHG ∪ {CHG.regs} (40_executor.md R106) sets the one flag and keeps the two others. -/
theorem ChangeFlags.union_regsOnly (f : ChangeFlags) : f.union regsOnly = { f with regs := true } := by
  simp [ChangeFlags.union]

theorem raise_regsOnly (s : State) : raise regsOnly s = { s with chg := { s.chg with regs := true } } :=
  congrArg s.setChg (ChangeFlags.union_regsOnly s.chg)

end Sys2Proof.Machine

namespace Sys2Proof

open Sys2Proof.Machine

/-- Settles O42: the byte is the encoding of WT1; the mask and the shift join the immediate to the low nibble of LOC. -/
theorem wt1WritesHighNibbleOfLoc : Obligations.Wt1WritesHighNibbleOfLoc := by
  refine fun imm => ⟨decode_encode (.wt1 imm), rfl, fun s => ?_⟩
  rw [exec_wt1, raise_regsOnly, withHighNibble_eq]
  rfl

/-- Settles O43: the byte is the encoding of WT2; the mask joins the high nibble of LOC to the immediate. -/
theorem wt2WritesLowNibbleOfLoc : Obligations.Wt2WritesLowNibbleOfLoc := by
  refine fun imm => ⟨decode_encode (.wt2 imm), rfl, fun s => ?_⟩
  rw [exec_wt2, raise_regsOnly, withLowNibble_eq]
  rfl

/-- Settles O44: the byte is the encoding of WTX, which writes X and CHG.regs. -/
theorem wtxWritesX : Obligations.WtxWritesX := by
  refine fun imm => ⟨decode_encode (.wtx imm), rfl, fun s => ?_⟩
  rw [exec_wtx, raise_regsOnly]
  rfl

/-- Settles O45: the byte is the encoding of WTY, which writes Y and CHG.regs. -/
theorem wtyWritesY : Obligations.WtyWritesY := by
  refine fun imm => ⟨decode_encode (.wty imm), rfl, fun s => ?_⟩
  rw [exec_wty, raise_regsOnly]
  rfl

/-- Settles O46: the byte is the encoding of WTZ, which writes Z and CHG.regs. -/
theorem wtzWritesZ : Obligations.WtzWritesZ := by
  refine fun imm => ⟨decode_encode (.wtz imm), rfl, fun s => ?_⟩
  rw [exec_wtz, raise_regsOnly]
  rfl

end Sys2Proof
end

section
/-! The memory transfers (44_memory_transfer.md R190 to R193): the byte of each, and the state it answers; O47 to O50. -/

namespace Sys2Proof.Machine

/-- CHG ∪ what a store sets at `a` (40_executor.md R106): regs is kept, mem is set, and disp is set where `a` is below 4. -/
theorem ChangeFlags.union_storeSets (f : ChangeFlags) (a : Byte) :
    f.union (storeSets a) = { f with mem := true, disp := f.disp || decide (a.toNat < 4) } := by
  rw [ChangeFlags.union, storeSets_regs, storeSets_mem, Bool.or_false, Bool.or_true]
  rfl

theorem raise_storeSets (a : Byte) (s : State) :
    raise (storeSets a) s =
      { s with chg := { s.chg with mem := true, disp := s.chg.disp || decide (a.toNat < 4) } } :=
  congrArg s.setChg (ChangeFlags.union_storeSets s.chg a)

end Sys2Proof.Machine

namespace Sys2Proof

open Sys2Proof.Machine

/-- Settles O47: the row of opcode 8 is ZTR, which writes Z at the RAM address LOC and then raises the flags of a store
there, so that LOC reads Z and every other nibble is in ZTR's frame. -/
theorem ztrStoresZ : Obligations.ZtrStoresZ := by
  refine ⟨by decide, decode_join 0x8#4, fun s => ⟨_, exec_ztr s, ?_, ?_, rfl, ?_⟩⟩
  · rw [raise_storeSets]
    rfl
  · exact memRead_memWrite_same s s.loc s.z
  · obtain ⟨hother, -⟩ := ztr_frame (exec_ztr s)
    exact hother

/-- Settles O48: the row of opcode 9 is RTZ, which writes the RAM operand to Z, and CHG.regs. -/
theorem rtzLoadsZ : Obligations.RtzLoadsZ := by
  refine ⟨by decide, decode_join 0x9#4, fun s => ?_⟩
  rw [exec_rtz, raise_regsOnly]
  rfl

/-- Settles O49: the row of opcode 13 is RTX, which writes the RAM operand to X, and CHG.regs. -/
theorem rtxLoadsX : Obligations.RtxLoadsX := by
  refine ⟨by decide, decode_join 0xD#4, fun s => ?_⟩
  rw [exec_rtx, raise_regsOnly]
  rfl

/-- Settles O50: the row of opcode 14 is RTY, which writes the RAM operand to Y, and CHG.regs. -/
theorem rtyLoadsY : Obligations.RtyLoadsY := by
  refine ⟨by decide, decode_join 0xE#4, fun s => ?_⟩
  rw [exec_rty, raise_regsOnly]
  rfl

end Sys2Proof
end

section
/-! The jumps (45_jump.md R210 to R215): the byte of PC1, PC2 and JMP and the state each answers, the three steps of GOTO,
and TPC between two JMPs; O51 to O53, O57 and O58. -/

namespace Sys2Proof.Machine

theorem toNat_sub_one (b : Byte) : (b - 0x01#8).toNat = (b.toNat + 255) % 256 := by
  rw [BitVec.toNat_sub, Nat.add_comm]
  rfl

theorem ofNat_sub_one (b : Byte) : BitVec.ofNat 8 ((b.toNat + 255) % 256) = b - 0x01#8 := by
  rw [← toNat_sub_one, BitVec.ofNat_toNat, BitVec.setWidth_eq]

/-- The decrement borrows from the high nibble exactly where the low nibble is 0. -/
theorem highNibble_sub_one_eq_iff (b : Byte) : highNibble (b - 0x01#8) = highNibble b ↔ lowNibble b ≠ 0 := by
  have hb := b.isLt
  rw [highNibble_eq_ofNat, highNibble_eq_ofNat, lowNibble_eq_ofNat, ne_eq, ← BitVec.toNat_inj, ← BitVec.toNat_inj,
    toNat_sub_one]
  simp only [BitVec.ofNat_eq_ofNat, BitVec.toNat_ofNat]
  omega

theorem join_eq_iff_highNibble (hi : Nibble) (b : Byte) : joinNibbles hi (lowNibble b) = b ↔ hi = highNibble b := by
  constructor
  · intro h
    rw [← h, highNibble_join]
  · rintro rfl
    exact join_nibbles b

/-- The advance of PC undoes the decrement (45_jump.md R212). -/
theorem endStep_setPc_sub_one (s : State) (v : Byte) : endStep (s.setPc (v - 0x01#8)) = s.setPc v := by
  rw [endStep, State.setPc_pc, BitVec.sub_add_cancel]
  rfl

/-- A finished JMP leaves the old TPC in PC and one less in TPC, and all else as it was (45_jump.md R212). -/
theorem finishStep_jmp (s : State) :
    finishStep (exec .jmp s) = .next ((s.setTpc (s.tpc - 0x01#8)).setPc s.tpc) := by
  rw [exec_jmp, finishStep, endStep_setPc_sub_one]

/-- An instruction other than PC1, PC2 and JMP leaves TPC as it is (10_state.md R33, R36). -/
theorem step_tpc {s t : State} (h : step s = .next t)
    (hi : (decode (fetch s)).mnemonic ∉ ([.pc1, .pc2, .jmp] : List Mnemonic)) : t.tpc = s.tpc := by
  have hcol : Column.tpc ∉ writes (decode (fetch s)) := by
    cases hd : decode (fetch s)
    case pc1 | pc2 | jmp => simp [hd, Instr.mnemonic] at hi
    all_goals simp [writes]
  obtain ⟨u, hu, rfl⟩ := step_eq_next.mp h
  exact (exec_sameColumn hu hcol).symm

/-- What every step from a state of `Q` keeps, a run keeps whose states before the last are all in `Q`. -/
theorem run_keeps_while {P Q : State → Prop} (hstep : ∀ {s t : State}, Q s → P s → step s = .next t → P t) {n : Nat} :
    ∀ {s t : State}, (∀ k w, k < n → core.run k s = .next w → Q w) → P s → core.run n s = .next t → P t := by
  induction n with
  | zero => intro s t _ hs h; cases h; exact hs
  | succ n ih =>
    intro s t hq hs h
    obtain ⟨u, hu, ht⟩ := run_succ_eq_next.mp h
    have hqs : Q s := hq 0 s n.succ_pos rfl
    have hqu : ∀ k w, k < n → core.run k u = .next w → Q w := fun k w hk hw =>
      hq (k + 1) w (Nat.succ_lt_succ hk) (run_succ_eq_next.mpr ⟨u, hu, hw⟩)
    exact ih hqu (hstep hqs hs hu) ht

end Sys2Proof.Machine

namespace Sys2Proof

open Sys2Proof.Machine

/-- Settles O51: the byte is the encoding of PC1; the mask joins the high nibble of TPC to the immediate. -/
theorem pc1WritesLowNibbleOfTpc : Obligations.Pc1WritesLowNibbleOfTpc := by
  refine fun imm => ⟨decode_encode (.pc1 imm), rfl, fun s => ?_⟩
  rw [exec_pc1, raise_regsOnly, withLowNibble_eq]
  rfl

/-- Settles O52: the byte is the encoding of PC2; the mask and the shift join the immediate to the low nibble of TPC. -/
theorem pc2WritesHighNibbleOfTpc : Obligations.Pc2WritesHighNibbleOfTpc := by
  refine fun imm => ⟨decode_encode (.pc2 imm), rfl, fun s => ?_⟩
  rw [exec_pc2, raise_regsOnly, withHighNibble_eq]
  rfl

/-- Settles O53: the row of opcode 12 is JMP, which writes the decremented TPC to TPC and PC; and the end of the step
undoes the decrement in PC alone. -/
theorem jmpGoesToTpcAndLeavesItDecremented : Obligations.JmpGoesToTpcAndLeavesItDecremented := by
  refine ⟨by decide, decode_join 0xC#4, fun s d hd => ?_⟩
  obtain rfl : d = s.tpc - 0x01#8 := hd.trans (ofNat_sub_one s.tpc)
  exact ⟨exec_jmp s, finishStep_jmp s⟩

theorem runInstrs_jmp_eq (is : List Instr) (s : State) :
    runInstrs (.jmp :: is) s = runInstrs is ((s.setTpc (s.tpc - 0x01#8)).setPc s.tpc) := by
  rw [runInstrs, finishStep_jmp]

theorem runInstrs_pc1_eq (imm : Nibble) (is : List Instr) (s : State) :
    runInstrs (.pc1 imm :: is) s =
      runInstrs is (endStep (raise regsOnly (s.setTpc (joinNibbles (highNibble s.tpc) imm)))) := by
  rw [runInstrs_cons (exec_pc1 imm s), withLowNibble_eq]

/-- PC1 then PC2 with the nibbles of an address load it in TPC, and change only PC and CHG.regs besides (30_encoding.md
R88). -/
theorem runInstrs_pc1_pc2 (l : Byte) (is : List Instr) (s : State) :
    runInstrs (.pc1 (lowNibble l) :: .pc2 (highNibble l) :: is) s =
      runInstrs is (raise regsOnly ((s.setTpc l).setPc (s.pc + 0x01#8 + 0x01#8))) := by
  have htpc : withHighNibble (withLowNibble s.tpc (lowNibble l)) (highNibble l) = l := by
    rw [withHighNibble_withLowNibble, join_nibbles]
  rw [runInstrs_cons (exec_pc1 _ s), runInstrs_cons (exec_pc2 _ _), endStep_tpc, raise_tpc, State.setTpc_tpc, htpc,
    raise_regsOnly, raise_regsOnly, raise_regsOnly]
  rfl

/-- GOTO leaves the whole state but for PC, its target, TPC, one less, and CHG.regs (45_jump.md R215). -/
theorem runInstrs_pc1_pc2_jmp (l : Byte) (s : State) :
    runInstrs [.pc1 (lowNibble l), .pc2 (highNibble l), .jmp] s =
      .next { s with pc := l, tpc := l - 0x01#8, chg := { s.chg with regs := true } } := by
  rw [runInstrs_pc1_pc2, runInstrs_jmp_eq, raise_regsOnly]
  rfl

/-- Settles O58: GOTO replaces PC, TPC and CHG.regs by values that do not depend on the state, so a second pass replaces
them by the same. -/
theorem gotoIdleLoopRepeats : Obligations.GotoIdleLoopRepeats := by
  intro l s
  rw [ofNat_sub_one]
  exact ⟨_, runInstrs_pc1_pc2_jmp l s, rfl, runInstrs_pc1_pc2_jmp l _⟩

/-- Settles O57: between the JMPs every step keeps the TPC that the first left, so the second goes there; PC1 with the
old low nibble undoes the decrement where that did not borrow, and PC2 after it undoes the borrow. -/
theorem jmpDecrementPersists : Obligations.JmpDecrementPersists := by
  constructor
  · intro n s t v hs hst hbetween hrun hv
    obtain rfl : (s.setTpc (s.tpc - 0x01#8)).setPc s.tpc = t := by simpa [step_of_jmp hs] using hst
    have htpc : v.tpc = s.tpc - 0x01#8 :=
      run_keeps_while (P := fun w => w.tpc = s.tpc - 0x01#8) (fun hi hw h => (step_tpc h hi).trans hw) hbetween rfl hrun
    exact ⟨_, step_of_jmp hv, rfl, htpc ▸ toNat_sub_one s.tpc⟩
  · intro s
    refine ⟨_, _, (runInstrs_jmp_eq _ s).trans (runInstrs_pc1_eq _ _ _), ?_,
      (runInstrs_jmp_eq _ s).trans (runInstrs_pc1_pc2 s.tpc _ _), rfl⟩
    exact (join_eq_iff_highNibble _ s.tpc).trans (highNibble_sub_one_eq_iff s.tpc)

end Sys2Proof
end

section
/-! Reset asserted (70_reset_and_hazards.md R261) and what an instruction sees of the one before it (R263); O18 and O59. -/

namespace Sys2Proof

open Sys2Proof.Machine

/-- Settles O18: the cycle is a reset cycle, which keeps the image already there, or takes the image of the load, which is
the created machine's too. -/
theorem resetInputReproducesCreation : Obligations.ResetInputReproducesCreation := by
  intro inp s hreset
  rw [cycle_reset s hreset]
  refine ⟨fun hload => ?_, fun bytes t hload hcreate => ?_, fun hload => ?_⟩
  · rw [hload, resetCycle]
  · obtain ⟨rom, hrom, rfl⟩ := create_eq_ok.mp hcreate
    exact resetCycle_eq_next.mpr ⟨rom, rfl, .inr ⟨bytes, hload, hrom⟩⟩
  · rw [hload]
    rfl

/-- What the finished step of an instruction leaves in `t` of what it found in `s`: the register, flag or nibble that it
writes; for NOP, which writes none, the whole state (70_reset_and_hazards.md R263). -/
def HasEffect (i : Instr) (s t : State) : Prop :=
  match i with
  | .nop => t = endStep s
  | .add => t.z.toNat = (s.x.toNat + s.y.toNat + (s.uc && s.c).toNat) % 16 ∧
      t.c = decide (16 ≤ s.x.toNat + s.y.toNat + (s.uc && s.c).toNat)
  | .sub => (t.z.toNat : Int) = ((s.x.toNat : Int) - s.y.toNat - (s.uc && s.c).toNat) % 16 ∧
      t.c = decide (s.y.toNat + (s.uc && s.c).toNat ≤ s.x.toNat)
  | .wt1 imm => t.loc = imm ++ lowNibble s.loc
  | .wt2 imm => t.loc = highNibble s.loc ++ imm
  | .wtx imm => t.x = imm
  | .wty imm => t.y = imm
  | .wtz imm => t.z = imm
  | .ztr => memRead t s.loc = s.z ∧ ∀ a, a ≠ s.loc → memRead t a = memRead s a
  | .rtz => t.z = memRead s s.loc
  | .pc1 imm => t.tpc = highNibble s.tpc ++ imm
  | .pc2 imm => t.tpc = imm ++ lowNibble s.tpc
  | .jmp => t.pc = s.tpc ∧ t.tpc = s.tpc - 0x01#8
  | .rtx => t.x = memRead s s.loc
  | .rty => t.y = memRead s s.loc
  | .usc => t.uc = !s.uc

theorem HasEffect.of_eq {i j : Instr} {s t : State} (h : HasEffect i s t) (hij : i = j) : HasEffect j s t :=
  hij ▸ h

theorem aluStep_add_z_toNat (s : State) :
    (aluStep .add s).z.toNat = (s.x.toNat + s.y.toNat + (carryTerm s).toNat) % 16 := by
  rw [← aluStep_add_digits, Nat.add_mul_mod_self_left, Nat.mod_eq_of_lt (BitVec.isLt _)]

theorem aluStep_add_c (s : State) :
    (aluStep .add s).c = decide (16 ≤ s.x.toNat + s.y.toNat + (carryTerm s).toNat) :=
  alu_add_carry s.x s.y (carryTerm s)

/-- Every instruction completes, and its finished step has its effect. -/
theorem finishStep_hasEffect (i : Instr) (s : State) :
    ∃ t, finishStep (exec i s) = .next t ∧ HasEffect i s t := by
  obtain ⟨u, hu⟩ := exec_completes i s
  refine ⟨endStep u, finishStep_eq_next.mpr ⟨u, hu, rfl⟩, ?_⟩
  cases i <;> cases hu
  case add => exact ⟨aluStep_add_z_toNat s, aluStep_add_c s⟩
  case sub => exact ⟨aluStep_sub_z_int s, aluStep_sub_c s⟩
  case wt1 imm => exact withHighNibble_eq s.loc imm
  case wt2 imm => exact withLowNibble_eq s.loc imm
  case pc1 imm => exact withLowNibble_eq s.tpc imm
  case pc2 imm => exact withHighNibble_eq s.tpc imm
  case ztr => exact ⟨memRead_memWrite_same s s.loc s.z, fun a ha => memRead_memWrite_other s s.z ha⟩
  case jmp => exact ⟨BitVec.sub_add_cancel _ _, rfl⟩
  case nop | wtx | wty | wtz | rtz | rtx | rty | usc => rfl

/-- The end of a step writes PC alone, so a column other than PC that the instruction's row does not write is unchanged
(10_state.md R36). -/
theorem finishStep_sameColumn {i : Instr} {k : Column} {s t : State} (h : finishStep (exec i s) = .next t)
    (hk : k ∉ .pc :: writes i) : SameColumn k s t := by
  obtain ⟨hpc, hwrites⟩ := List.ne_and_not_mem_of_not_mem_cons hk
  obtain ⟨u, hu, rfl⟩ := finishStep_eq_next.mp h
  have hsame : SameColumn k s u := exec_sameColumn hu hwrites
  cases k
  case pc => exact absurd rfl hpc
  all_goals exact hsame

theorem runInstrs_cons_of_finishStep {i : Instr} {is : List Instr} {s t : State}
    (h : finishStep (exec i s) = .next t) : runInstrs (i :: is) s = runInstrs is t := by
  rw [runInstrs, h]

/-- After a finished step any instruction completes, with its effect on the state that the step left. -/
theorem runInstrs_pair_hasEffect {i : Instr} {s t : State} (h : finishStep (exec i s) = .next t) (j : Instr) :
    ∃ u, runInstrs [i, j] s = .next u ∧ HasEffect j t u := by
  obtain ⟨u, hu, heffect⟩ := finishStep_hasEffect j t
  exact ⟨u, (runInstrs_cons_of_finishStep h).trans (runInstrs_cons_of_finishStep hu), heffect⟩

/-- A load right after ZTR reads the nibble that ZTR stored, since ZTR keeps LOC. -/
theorem memRead_loc_after_ztr {s t : State} (h : finishStep (exec .ztr s) = .next t) (heffect : HasEffect .ztr s t) :
    memRead t t.loc = s.z := by
  obtain ⟨hstored, -⟩ := heffect
  have hloc : s.loc = t.loc := finishStep_sameColumn (k := .loc) h (by decide)
  rw [← hloc, hstored]

/-- With UC true an ADD right after an ADD adds the same X and Y and the C of the first. -/
theorem add_after_add {s t u : State} (huc : s.uc = true) (h : finishStep (exec .add s) = .next t)
    (heffect : HasEffect .add t u) : u.z.toNat = (s.x.toNat + s.y.toNat + t.c.toNat) % 16 := by
  obtain ⟨hz, -⟩ := heffect
  have hx : s.x = t.x := finishStep_sameColumn (k := .x) h (by decide)
  have hy : s.y = t.y := finishStep_sameColumn (k := .y) h (by decide)
  have hkeep : s.uc = t.uc := finishStep_sameColumn (k := .uc) h (by decide)
  rw [hz, hx, hy, ← hkeep, huc, Bool.true_and]

/-- Settles O59: each instruction completes with its effect, whether it is the first or the one right after, whose effect
is on the state that the first left; R263's own pairs follow with what the first keeps. -/
theorem nextInstructionSeesEveryEffect : Obligations.NextInstructionSeesEveryEffect := by
  refine ⟨fun i s => ?_, fun s => ?_, fun imm s => ?_, fun s huc => ?_, fun s hjmp => ?_⟩
  · obtain ⟨t, ht, hi⟩ := finishStep_hasEffect i s
    have hnext := runInstrs_pair_hasEffect ht
    refine ⟨t, ht, ?_, hnext .add, hnext .sub, hnext .usc, hnext .ztr, hnext .rtz, hnext .rtx, hnext .rty, hnext .jmp,
      fun imm => hnext (.wt1 imm), fun imm => hnext (.wt2 imm), fun imm => hnext (.pc1 imm), fun imm => hnext (.pc2 imm)⟩
    exact ⟨fun _ => hi.of_eq, fun _ => hi.of_eq, fun _ => hi.of_eq, hi.of_eq, hi.of_eq, hi.of_eq, fun _ => hi.of_eq,
      fun _ => hi.of_eq, fun _ => hi.of_eq, fun _ => hi.of_eq, hi.of_eq, hi.of_eq, hi.of_eq,
      fun h => (hi.of_eq h).1, hi.of_eq⟩
  · obtain ⟨w, hw, hztr⟩ := finishStep_hasEffect .ztr s
    have hload := memRead_loc_after_ztr hw hztr
    obtain ⟨t, ht, hz⟩ := runInstrs_pair_hasEffect hw .rtz
    obtain ⟨u, hu, hx⟩ := runInstrs_pair_hasEffect hw .rtx
    obtain ⟨v, hv, hy⟩ := runInstrs_pair_hasEffect hw .rty
    exact ⟨t, u, v, ht, hz.trans hload, hu, hx.trans hload, hv, hy.trans hload⟩
  · obtain ⟨v, hv, hlow⟩ := finishStep_hasEffect (.pc1 imm) s
    obtain ⟨w, hw, hhigh⟩ := finishStep_hasEffect (.pc2 imm) s
    obtain ⟨t, ht, htpc, -⟩ := runInstrs_pair_hasEffect hv .jmp
    obtain ⟨u, hu, hupc, -⟩ := runInstrs_pair_hasEffect hw .jmp
    exact ⟨t, u, ht, htpc.trans hlow, hu, hupc.trans hhigh⟩
  · obtain ⟨t, ht, -⟩ := finishStep_hasEffect .add s
    obtain ⟨u, hu, hadd⟩ := runInstrs_pair_hasEffect ht .add
    exact ⟨t, u, runInstrs_cons_of_finishStep ht, hu, add_after_add huc ht hadd⟩
  · obtain ⟨u, hu⟩ := step_completes ((s.setTpc (s.tpc - 0x01#8)).setPc s.tpc)
    exact ⟨_, u, step_of_jmp hjmp, hu, hu⟩

end Sys2Proof
end

section
/-! A load request while reset is not asserted (92_eei_decisions.md D5, 93_implementation_defined.md I10); O19. -/

namespace Sys2Proof

open Sys2Proof.Machine

/-- Settles O19: the cycle's load case, which stands before its step case, so neither a step request nor the clears nor the
bytes of the load matter. -/
theorem loadOutsideResetIsRefused : Obligations.LoadOutsideResetIsRefused :=
  fun _ s _ hreset hload => cycle_load s hreset hload

end Sys2Proof
end
